-- ==== Sys2Proof/Word.lean ====
section
/-! DEFINITION. The words of the block: the byte, the command word, the cache slot number and the pixel. -/

namespace Sys2Proof

/-- One unsigned 8-bit value: a channel, a threshold, an output byte (00_scope.md R8). -/
abbrev Byte := BitVec 8

/-- A header dimension, uint32 (00_scope.md R8, DIM_BITS). -/
abbrev Dim := BitVec 32

/-- The 75-bit command word `{op[2:0], data[71:0]}` (30_encoding.md R80). -/
abbrev CommandWord := BitVec 75

/-- The number of a cache slot, 0..63 (10_state.md R36). -/
abbrev Slot := BitVec 6

/-- A pixel: four unsigned 8-bit channels (00_scope.md R12, 10_state.md R31).
Equality compares all four channels. -/
structure Pixel where
  r : Byte
  g : Byte
  b : Byte
  a : Byte
  deriving DecidableEq, Repr, Inhabited

end Sys2Proof
end

