-- ==== Sys2Proof/Config.lean ====
section
/-! DEFINITION. The block's fixed parameters (00_scope.md R8) and the model's free values: what a reset during a run
leaves in the state elements to which the spec gives no value (10_state.md R44, 70_reset_and_hazards.md R250). -/

namespace Sys2Proof

/-- CACHE_SLOTS, 64 (00_scope.md R8). -/
abbrev Config.cacheSlots : Nat := 64

/-- RUN_CAP, 62 pixels per RUN record (00_scope.md R8, 41_encode_pixel.md R138). -/
abbrev Config.runCap : Nat := 62

/-- HDR_BYTES, 14 (00_scope.md R8): also the largest content of `outq` (10_state.md R40). -/
abbrev Config.hdrBytes : Nat := 14

/-- FTR_BYTES, 8 (00_scope.md R8). -/
abbrev Config.ftrBytes : Nat := 8

/-- MAX_PIXEL_BYTES, 6 (00_scope.md R8, 41_encode_pixel.md R146). -/
abbrev Config.maxPixelBytes : Nat := 6

/-- Free value: what the reset numbered `n` leaves in `prev`.  The spec gives it no value (10_state.md R44), and
nothing in Lean can know it.  Log entry 3, safe. -/
opaque Config.freePrev : Nat → Pixel

/-- Free value: what the reset numbered `n` leaves in `run`.  Log entry 3, safe. -/
opaque Config.freeRun : Nat → BitVec 6

/-- Free value: what the reset numbered `n` leaves in slot `i` of the cache.  Log entry 3, safe. -/
opaque Config.freeSlot : Nat → Fin 64 → Pixel

/-- Free value: what the reset numbered `n` leaves in `thr`.  Log entry 3, safe. -/
opaque Config.freeThr : Nat → Byte

end Sys2Proof
end

