-- ==== Sys2Proof/Syntax.lean ====
section
/-! DEFINITION. The instructions: one constructor per row of spec/opcode_table.json, that is five commands, three
reserved command codes and six output records. -/

namespace Sys2Proof

/-- The rows of the opcode table.  The first eight are what a command word names (30_encoding.md R81, R87).
The last six are the output records (30_encoding.md R91 to R97), the instructions of the block's formatter
(42_formatter.md R170 to R175).  An ignored payload bit is no operand (30_encoding.md R86). -/
inductive Instr where
  /-- INIT t: start a session with threshold `t` (40_session.md R111). -/
  | init (t : Byte)
  /-- PIXEL r,g,b,a: encode one pixel (41_encode_pixel.md R136). -/
  | pixel (px : Pixel)
  /-- FINALIZE: flush the pending run and end the pixel phase (40_session.md R113). -/
  | finalize
  /-- HEADER w,h,c: emit the 14-byte header (43_framing.md R200). -/
  | header (w h : Dim) (c : Byte)
  /-- FOOTER: emit the 8-byte terminator (43_framing.md R203). -/
  | footer
  /-- Command code 0b000, reserved (30_encoding.md R87). -/
  | reserved000
  /-- Command code 0b110, reserved (30_encoding.md R87). -/
  | reserved110
  /-- Command code 0b111, reserved (30_encoding.md R87). -/
  | reserved111
  /-- INDEX slot (42_formatter.md R170). -/
  | index (slot : Slot)
  /-- DIFF dr,dg,db: signed deltas, each in [-2, 1] (42_formatter.md R171). -/
  | diff (dr dg db : Int)
  /-- LUMA dg,drg,dbg with drg = dr - dg and dbg = db - dg (42_formatter.md R172). -/
  | luma (dg drg dbg : Int)
  /-- RUN n: `n` is the run length, 1..62, and not the stored field (42_formatter.md R173). -/
  | run (n : Nat)
  /-- RGB r,g,b (42_formatter.md R174). -/
  | rgb (r g b : Byte)
  /-- RGBA r,g,b,a (42_formatter.md R175). -/
  | rgba (r g b a : Byte)
  deriving DecidableEq, Repr

end Sys2Proof
end

