-- ==== Sys2Proof/WellFormed.lean ====
section
/-! DEFINITION. Which terms of Instr are instructions: the operand ranges of the records (30_encoding.md R98,
42_formatter.md R171 to R173).  Every other operand has the width of its field and no further bound. -/

namespace Sys2Proof

/-- `lo ≤ x ≤ hi` (00_scope.md R11). -/
def inRange (x lo hi : Int) : Bool := decide (lo ≤ x) && decide (x ≤ hi)

/-- The operand ranges of 30_encoding.md R98.  A HEADER channel count other than 3 or 4 is well formed: it is a
command the block takes and faults on (60_exceptions.md R220). -/
def wellFormed : Instr → Bool
  | .init _ => true
  | .pixel _ => true
  | .finalize => true
  | .header _ _ _ => true
  | .footer => true
  | .reserved000 => true
  | .reserved110 => true
  | .reserved111 => true
  | .index _ => true
  | .diff dr dg db => inRange dr (-2) 1 && inRange dg (-2) 1 && inRange db (-2) 1
  | .luma dg drg dbg => inRange dg (-32) 31 && inRange drg (-8) 7 && inRange dbg (-8) 7
  | .run n => decide (1 ≤ n) && decide (n ≤ 62)
  | .rgb _ _ _ => true
  | .rgba _ _ _ _ => true

end Sys2Proof
end

