-- ==== Sys2Proof/Decode.lean ====
section
/-! DEFINITION. Decoding of command words (30_encoding.md R80 to R87) and of output records (R91 to R98), total on
any bits, rejecting by name; and the encoder, written from the same bit layouts. -/

namespace Sys2Proof

/-- Why bytes are no record.  No byte value is reserved as a first byte (30_encoding.md R99), so bytes fail to be
a record only by ending too early. -/
inductive DecodeError where
  /-- There is no first byte. -/
  | noBytes
  /-- The record whose first byte is `tag` needs more bytes than there are (30_encoding.md R91). -/
  | truncated (tag : Byte)
  deriving DecidableEq, Repr

/-- An encoded instruction: a command is one 75-bit word (30_encoding.md R80), a record is 1 to 5 bytes in transfer
order (30_encoding.md R90). -/
inductive Encoded where
  | command (w : CommandWord)
  | record (bytes : List Byte)
  deriving DecidableEq, Repr

/-! ### Bias encoding (30_encoding.md R98) -/

/-- The stored field of `v` when the lowest value of its range is `-bias`: `v + bias` in `n` bits. -/
def biasField (n : Nat) (bias v : Int) : BitVec n := BitVec.ofInt n (v + bias)

/-- The value of a stored field: zero-extended, less the bias. -/
def unbiasField (bias : Int) {n : Nat} (f : BitVec n) : Int := (f.toNat : Int) - bias

/-! ### Command words -/

/-- `op`, bits 74:72 (30_encoding.md R80). -/
def commandOp (w : CommandWord) : BitVec 3 := w.extractLsb' 72 3

/-- The command a word names: `op` alone decides, every word decodes, an ignored bit is dropped
(30_encoding.md R81 to R87). -/
def decodeCommand (w : CommandWord) : Instr :=
  match (commandOp w).toNat with
  | 0 => .reserved000
  | 1 => .init (w.extractLsb' 0 8)
  | 2 => .pixel ⟨w.extractLsb' 24 8, w.extractLsb' 16 8, w.extractLsb' 8 8, w.extractLsb' 0 8⟩
  | 3 => .finalize
  | 4 => .header (w.extractLsb' 40 32) (w.extractLsb' 8 32) (w.extractLsb' 0 8)
  | 5 => .footer
  | 6 => .reserved110
  | _ => .reserved111

/-- The bits of a command word that some rule reads, by `op`; the rest are ignored (30_encoding.md R82 to R86). -/
def commandUsedBits (op : BitVec 3) : CommandWord :=
  match op.toNat with
  | 1 => 0x70000000000000000FF#75
  | 2 => 0x70000000000FFFFFFFF#75
  | 4 => 0x7FFFFFFFFFFFFFFFFFF#75
  | _ => 0x7000000000000000000#75

/-! ### Output records -/

/-- The first record of a byte sequence, and the bytes after it (30_encoding.md R91): the two 8-bit tags are tested
first, then the 2-bit tags. -/
def decodeRecord : List Byte → Except DecodeError (Instr × List Byte)
  | [] => .error .noBytes
  | b0 :: rest =>
    if b0 = 0xFE#8 then
      match rest with
      | r :: g :: b :: rest' => .ok (.rgb r g b, rest')
      | _ => .error (.truncated b0)
    else if b0 = 0xFF#8 then
      match rest with
      | r :: g :: b :: a :: rest' => .ok (.rgba r g b a, rest')
      | _ => .error (.truncated b0)
    else
      match (b0.extractLsb' 6 2).toNat with
      | 0 => .ok (.index (b0.extractLsb' 0 6), rest)
      | 1 => .ok (.diff (unbiasField 2 (b0.extractLsb' 4 2)) (unbiasField 2 (b0.extractLsb' 2 2))
          (unbiasField 2 (b0.extractLsb' 0 2)), rest)
      | 2 =>
        match rest with
        | b1 :: rest' => .ok (.luma (unbiasField 32 (b0.extractLsb' 0 6)) (unbiasField 8 (b1.extractLsb' 4 4))
            (unbiasField 8 (b1.extractLsb' 0 4)), rest')
        | [] => .error (.truncated b0)
      | _ => .ok (.run ((b0.extractLsb' 0 6).toNat + 1), rest)

/-- Decoding of either encoding; of record bytes, the first record. -/
def decode : Encoded → Except DecodeError Instr
  | .command w => .ok (decodeCommand w)
  | .record bytes =>
    match decodeRecord bytes with
    | .ok (i, _) => .ok i
    | .error e => .error e

/-! ### The encoder -/

/-- A command word from its `op` and `data` fields (30_encoding.md R80). -/
def commandWord (op : BitVec 3) (data : BitVec 72) : CommandWord := op ++ data

/-- The words of an instruction, every ignored bit 0 (30_encoding.md R82 to R85, R88, R92 to R97). -/
def encode : Instr → Encoded
  | .init t => .command (commandWord 1#3 (0#64 ++ t))
  | .pixel px => .command (commandWord 2#3 (0#40 ++ px.r ++ px.g ++ px.b ++ px.a))
  | .finalize => .command (commandWord 3#3 0#72)
  | .header w h c => .command (commandWord 4#3 (w ++ h ++ c))
  | .footer => .command (commandWord 5#3 0#72)
  | .reserved000 => .command (commandWord 0#3 0#72)
  | .reserved110 => .command (commandWord 6#3 0#72)
  | .reserved111 => .command (commandWord 7#3 0#72)
  | .index slot => .record [0#2 ++ slot]
  | .diff dr dg db => .record [1#2 ++ biasField 2 2 dr ++ biasField 2 2 dg ++ biasField 2 2 db]
  | .luma dg drg dbg => .record [2#2 ++ biasField 6 32 dg, biasField 4 8 drg ++ biasField 4 8 dbg]
  | .run n => .record [3#2 ++ BitVec.ofNat 6 (n - 1)]
  | .rgb r g b => .record [0xFE#8, r, g, b]
  | .rgba r g b a => .record [0xFF#8, r, g, b, a]

/-! ### Words as spec/opcode_table.json numbers their bits -/

/-- Is a row of this many bits a record row?  The longest record has 40 bits and a command word 75, which the table
counts as 80 in whole bytes. -/
def isRecordRow (nbits : Nat) : Bool := decide (nbits ≤ 40)

/-- The command word whose bits are `w` (bit 0 the least significant bit of `data`); bits at and above `nbits`
are 0. -/
def tableCommand (nbits w : Nat) : CommandWord := BitVec.ofNat 75 (w % 2 ^ nbits)

/-- The record bytes whose bits are `w` (the first byte is bits 7..0), followed by zeros up to the longest record. -/
def tableBytes (nbits w : Nat) : List Byte :=
  let v := w % 2 ^ nbits
  [BitVec.ofNat 8 v, BitVec.ofNat 8 (v / 2 ^ 8), BitVec.ofNat 8 (v / 2 ^ 16), BitVec.ofNat 8 (v / 2 ^ 24),
    BitVec.ofNat 8 (v / 2 ^ 32)]

/-- The encoded instruction of an opcode-table word. -/
def tableEncoded (nbits w : Nat) : Encoded :=
  if isRecordRow nbits then .record (tableBytes nbits w) else .command (tableCommand nbits w)

/-- The instruction the decoder reads from a word whose bits are numbered as spec/opcode_table.json numbers them. -/
def decodeTableWord (nbits w : Nat) : Option Instr :=
  match decode (tableEncoded nbits w) with
  | .ok i => some i
  | .error _ => none

end Sys2Proof
end

