-- ==== Sys2Proof/Machine/State.lean ====
section
/-! DEFINITION. The state of the block (10_state.md R30) with the pins its environment drives
(70_reset_and_hazards.md R254), the reasons a step can stop, and the state after reset. -/

namespace Sys2Proof.Machine

/-- The session phase (10_state.md R38).  The encoding 0b11 is never held, so there are three values. -/
inductive Phase where
  /-- 0b00: no session. -/
  | unconfigured
  /-- 0b01: after INIT. -/
  | active
  /-- 0b10: after FINALIZE. -/
  | finalized
  deriving DecidableEq, Repr

/-- The causes of the block's own sticky fault status (60_exceptions.md R220).  Each is a next state, not a stop of
the model: see `State.raiseFault`. -/
inductive FaultCause where
  | reservedCommand
  | notInitialised
  | pixelAfterFinalize
  | badChannelCount
  deriving DecidableEq, Repr

/-- The two modes of the state machine (10_state.md R35). -/
inductive Mode where
  | idle
  | accumulatingRun
  deriving DecidableEq, Repr

/-- The input pins at one rising edge of `clk` (70_reset_and_hazards.md R254). -/
structure Pins where
  /-- `rst`. -/
  rst : Bool
  /-- `cmd_valid` with the command word `{cmd_op, cmd_data}`: none where `cmd_valid = 0`. -/
  cmd : Option CommandWord
  /-- `out_ready`. -/
  outReady : Bool
  deriving DecidableEq, Repr

/-- Why the model stops with a fault.  The block's own faults (60_exceptions.md R220) are not among these: they are
next states. -/
inductive Fault where
  /-- Raised by the step that would run the bytes at the formatter's input, where they are no whole record
  (30_encoding.md R91).  The spec gives no such bytes a meaning, and the selector never makes them.  Safe. -/
  | undecodable (e : DecodeError)
  deriving DecidableEq, Repr

/-- Why the model refuses a step. -/
inductive Refusal where
  /-- Raised by `exec` for an instruction that has no meaning yet.  No arm of it does.  Safe. -/
  | notModelled (mnemonic : String)
  /-- Raised by a clock edge at which the host changes or withdraws a command it offered before and that was not yet
  accepted: "a model gives such a host no move" (70_reset_and_hazards.md R257, 93_implementation_defined.md I8).
  Safe. -/
  | offerChanged
  deriving DecidableEq, Repr

/-- The state.  The first eight fields are the block's architectural state, "exactly this list"
(10_state.md R30).  The rest are the model's own: the environment at the block's ports, the formatter's input and the
index of the free values. -/
structure State where
  /-- The previous pixel; the anchor while a run is pending (10_state.md R32, R33). -/
  prev : Pixel
  /-- The pending run count, 6 bits, 0..61 at every command boundary (10_state.md R34). -/
  run : BitVec 6
  /-- The color cache, 64 slots (10_state.md R36). -/
  cache : Vector Pixel 64
  /-- The lossiness threshold (10_state.md R37). -/
  thr : Byte
  /-- The session phase (10_state.md R38). -/
  phase : Phase
  /-- The sticky fault status (10_state.md R39). -/
  fault : Bool
  /-- The cause of the fault, 3 bits (10_state.md R39, 60_exceptions.md R220). -/
  faultCode : BitVec 3
  /-- The output bytes of the current command not yet transferred, head first (10_state.md R40). -/
  outq : List Byte
  /-- Model's own: the bytes the sink has taken, oldest first (the observation of 00_scope.md R14). -/
  sink : List Byte
  /-- Model's own: the input pins at the edges to come, next edge first. -/
  inputs : List Pins
  /-- Model's own: the command offered at the last edge and not accepted, if any (70_reset_and_hazards.md R257). -/
  held : Option CommandWord
  /-- Model's own: bytes at the formatter's input, to be run as a record in a step of their own.  Log entry 8. -/
  formatterIn : Option (List Byte)
  /-- Model's own: how many resets there were; the index of the free values. -/
  freeIdx : Nat
  deriving DecidableEq, Repr

/-- The zero pixel (10_state.md R36). -/
def zeroPixel : Pixel := ⟨0#8, 0#8, 0#8, 0#8⟩

/-- The block right after reset (10_state.md R44, 70_reset_and_hazards.md R250): phase Unconfigured, no fault, nothing
to transfer.  DESIGN CHOICE (log entry 2, unsafe): `prev`, `run`, `cache` and `thr`, to which the spec gives no
value, are zero; no rule reads them before INIT.  Nothing is offered and no edge is scheduled (log entry 1). -/
def State.reset : State where
  prev := zeroPixel
  run := 0#6
  cache := Vector.replicate 64 zeroPixel
  thr := 0#8
  phase := .unconfigured
  fault := false
  faultCode := 0#3
  outq := []
  sink := []
  inputs := []
  held := none
  formatterIn := none
  freeIdx := 0

end Sys2Proof.Machine
end

