-- ==== Sys2Proof/Machine/Ops.lean ====
section
/-! DEFINITION. The named operations on the state: the registers, the cache (20_memory.md R61), emitting bytes
(00_scope.md R13), fault entry (60_exceptions.md R221) and, beside it, the only way out of a fault, reset
(60_exceptions.md R226, 70_reset_and_hazards.md R250). -/

namespace Sys2Proof.Machine

/-! ### Registers -/

/-- `prev <- px`. -/
def State.setPrev (s : State) (px : Pixel) : State := { s with prev := px }

/-- `run <- n`. -/
def State.setRun (s : State) (n : BitVec 6) : State := { s with run := n }

/-- `thr <- t`. -/
def State.setThr (s : State) (t : Byte) : State := { s with thr := t }

/-- `phase <- p`. -/
def State.setPhase (s : State) (p : Phase) : State := { s with phase := p }

/-! ### The color cache -/

/-- `CacheRead(i)`: the pixel in slot `i`, with no side effect (20_memory.md R61, R67). -/
def State.cacheRead (s : State) (i : Slot) : Pixel := s.cache[i.toNat]'i.isLt

/-- `CacheWrite(i, px)`: the whole slot `i` becomes `px` (20_memory.md R61). -/
def State.cacheWrite (s : State) (i : Slot) (px : Pixel) : State :=
  { s with cache := s.cache.set i.toNat px i.isLt }

/-- Every slot becomes the zero pixel (40_session.md R111, R112). -/
def State.cacheClear (s : State) : State := { s with cache := Vector.replicate 64 zeroPixel }

/-! ### Output -/

/-- `emit`, for each byte in order: append to the output queue (00_scope.md R13, 20_memory.md R70). -/
def State.emit (s : State) (bytes : List Byte) : State := { s with outq := s.outq ++ bytes }

/-- A 32-bit value as four bytes, most significant first: `emit_u32be` (00_scope.md R13, 20_memory.md R63). -/
def u32be (v : Dim) : List Byte :=
  [v.extractLsb' 24 8, v.extractLsb' 16 8, v.extractLsb' 8 8, v.extractLsb' 0 8]

/-! ### Fault entry, and reset -/

/-- The code of a cause (60_exceptions.md R220). -/
def faultCauseCode : FaultCause → BitVec 3
  | .reservedCommand => 1#3
  | .notInitialised => 2#3
  | .pixelAfterFinalize => 3#3
  | .badChannelCount => 4#3

/-- `raise Fault(code)`: set the sticky status and its code, and do nothing else (60_exceptions.md R221).
The step that raises answers a next state; that state accepts no command (R222). -/
def State.raiseFault (s : State) (c : FaultCause) : State :=
  { s with fault := true, faultCode := faultCauseCode c }

/-- The block's part of a rising edge with `rst` high (70_reset_and_hazards.md R250): phase, fault and fault code to
their reset values, untransferred bytes lost.  `prev`, `run`, `cache` and `thr` get no value: each becomes a free value
of its own (log entry 3).  It is the only exit from a fault (60_exceptions.md R226). -/
def State.resetBlock (s : State) : State :=
  { s with
    prev := Config.freePrev s.freeIdx
    run := Config.freeRun s.freeIdx
    cache := Vector.ofFn (Config.freeSlot s.freeIdx)
    thr := Config.freeThr s.freeIdx
    phase := .unconfigured
    fault := false
    faultCode := 0#3
    outq := []
    freeIdx := s.freeIdx + 1 }

/-! ### The environment's fields -/

/-- Take the pins of the next edge off the schedule. -/
def State.advance (s : State) : State := { s with inputs := s.inputs.tail }

/-- Record what the host is bound to keep offering (70_reset_and_hazards.md R257). -/
def State.setHeld (s : State) (cmd : Option CommandWord) : State := { s with held := cmd }

/-- The formatter's input has been taken. -/
def State.clearFormatterIn (s : State) : State := { s with formatterIn := none }

/-- The sink takes the head byte of `outq` (70_reset_and_hazards.md R256). -/
def State.transfer (s : State) : State :=
  { s with outq := s.outq.tail, sink := s.sink ++ s.outq.head?.toList }

/-- The sink takes every byte of `outq`, in order. -/
def State.drain (s : State) : State := { s with outq := [], sink := s.sink ++ s.outq }

end Sys2Proof.Machine
end

