-- ==== Sys2Proof/Machine/Operands.lean ====
section
/-! DEFINITION. The operand values the datapath computes: the 32-bit packing of a pixel (10_state.md R31), the cache
hash (41_encode_pixel.md R131) and the exact channel deltas (R132). -/

namespace Sys2Proof.Machine

/-- The pixel INIT leaves in `prev`: (0,0,0,255) (40_session.md R111). -/
def initialPixel : Pixel := ⟨0#8, 0#8, 0#8, 255#8⟩

/-- A pixel as the 32-bit value `{r, g, b, a}` (10_state.md R31). -/
def pixelPack (px : Pixel) : BitVec 32 := px.r ++ px.g ++ px.b ++ px.a

/-- The pixel of a 32-bit value `{r, g, b, a}` (10_state.md R31). -/
def pixelUnpack (v : BitVec 32) : Pixel :=
  ⟨v.extractLsb' 24 8, v.extractLsb' 16 8, v.extractLsb' 8 8, v.extractLsb' 0 8⟩

/-- `hash(px) = (r*3 + g*5 + b*7 + a*11) mod 64`: the exact sum, its bits 5:0 (41_encode_pixel.md R131). -/
def pixelHash (px : Pixel) : Slot :=
  BitVec.ofNat 6 (px.r.toNat * 3 + px.g.toNat * 5 + px.b.toNat * 7 + px.a.toNat * 11)

/-- The exact difference of two channels, -255..255, never modulo 256 (41_encode_pixel.md R132). -/
def channelDelta (new old : Byte) : Int := (new.toNat : Int) - (old.toNat : Int)

/-- `dr = px.r - prev.r` (41_encode_pixel.md R132). -/
def deltaR (px prev : Pixel) : Int := channelDelta px.r prev.r

/-- `dg = px.g - prev.g` (41_encode_pixel.md R132). -/
def deltaG (px prev : Pixel) : Int := channelDelta px.g prev.g

/-- `db = px.b - prev.b` (41_encode_pixel.md R132). -/
def deltaB (px prev : Pixel) : Int := channelDelta px.b prev.b

/-- `dr - dg` (41_encode_pixel.md R134). -/
def deltaRG (px prev : Pixel) : Int := deltaR px prev - deltaG px prev

/-- `db - dg` (41_encode_pixel.md R134). -/
def deltaBG (px prev : Pixel) : Int := deltaB px prev - deltaG px prev

end Sys2Proof.Machine
end

