-- ==== Sys2Proof/Machine/Flags.lean ====
section
/-! DEFINITION. The tests of the datapath (41_encode_pixel.md R130, R133, R134), the mode (10_state.md R35) and the
status outputs (10_state.md R41). -/

namespace Sys2Proof.Machine

/-- One channel is within the threshold: `abs(new - old) <= thr` (41_encode_pixel.md R130). -/
def withinThreshold (new old thr : Byte) : Bool := decide ((channelDelta new old).natAbs ≤ thr.toNat)

/-- The lossy color comparator; alpha must match exactly (41_encode_pixel.md R130). -/
def near (px prev : Pixel) (thr : Byte) : Bool :=
  withinThreshold px.r prev.r thr && withinThreshold px.g prev.g thr && withinThreshold px.b prev.b thr
    && decide (px.a = prev.a)

/-- The small-diff range test (41_encode_pixel.md R133). -/
def diffOk (px prev : Pixel) : Bool :=
  inRange (deltaR px prev) (-2) 1 && inRange (deltaG px prev) (-2) 1 && inRange (deltaB px prev) (-2) 1

/-- The luma range test (41_encode_pixel.md R134). -/
def lumaOk (px prev : Pixel) : Bool :=
  inRange (deltaG px prev) (-32) 31 && inRange (deltaRG px prev) (-8) 7 && inRange (deltaBG px prev) (-8) 7

/-- The mode is a function of `run`: accumulating-run when `run > 0` (10_state.md R35). -/
def State.mode (s : State) : Mode := if s.run = 0#6 then .idle else .accumulatingRun

/-- The status output `phase[1:0]` (10_state.md R38, R41). -/
def State.phasePin (s : State) : BitVec 2 :=
  match s.phase with
  | .unconfigured => 0b00#2
  | .active => 0b01#2
  | .finalized => 0b10#2

/-- The status output `fault` (10_state.md R41): a level, no interrupt (60_exceptions.md R225). -/
def State.faultPin (s : State) : Bool := s.fault

/-- The status output `fault_code[2:0]` (10_state.md R41). -/
def State.faultCodePin (s : State) : BitVec 3 := s.faultCode

end Sys2Proof.Machine
end

