-- ==== Sys2Proof/Machine/Framing.lean ====
section
/-! DEFINITION. The framing commands HEADER and FOOTER (43_framing.md).  They read and write no encoder state
(R202). -/

namespace Sys2Proof.Machine

/-- The magic "qoif", ASCII (43_framing.md R200). -/
def magic : List Byte := [0x71#8, 0x6F#8, 0x69#8, 0x66#8]

/-- The color-space byte, always 0 (43_framing.md R201). -/
def colorSpace : Byte := 0x00#8

/-- The 14 header bytes (43_framing.md R200). -/
def headerBytes (w h : Dim) (c : Byte) : List Byte := magic ++ u32be w ++ u32be h ++ [c, colorSpace]

/-- The 8 footer bytes (43_framing.md R203). -/
def footerBytes : List Byte := [0x00#8, 0x00#8, 0x00#8, 0x00#8, 0x00#8, 0x00#8, 0x00#8, 0x01#8]

/-- HEADER w,h,c (43_framing.md R200): a channel count other than 3 or 4 raises BadChannelCount; width and height are
not checked (R206). -/
def execHeader (w h : Dim) (c : Byte) (s : State) : Host.Outcome State Fault Refusal :=
  if c = 3#8 ∨ c = 4#8 then .next (s.emit (headerBytes w h c)) else .next (s.raiseFault .badChannelCount)

/-- FOOTER (43_framing.md R203): a pending run is not flushed. -/
def execFooter (s : State) : Host.Outcome State Fault Refusal := .next (s.emit footerBytes)

end Sys2Proof.Machine
end

