-- ==== Sys2Proof/Machine/Formatter.lean ====
section
/-! DEFINITION. The opcode formatter: the bytes of each record, by the pseudocode of 42_formatter.md R170 to R175.
PIXEL, FINALIZE and the record instructions all take their bytes from here. -/

namespace Sys2Proof.Machine

/-- An integer as the byte `emit` takes: exact arithmetic first, its low 8 bits last (00_scope.md R11). -/
def byteOf (v : Int) : Byte := BitVec.ofInt 8 v

/-- `emit(slot)` (42_formatter.md R170). -/
def formatIndex (slot : Slot) : List Byte := [byteOf slot.toNat]

/-- `emit(0x40 | (dr+2) << 4 | (dg+2) << 2 | (db+2))` (42_formatter.md R171). -/
def formatDiff (dr dg db : Int) : List Byte :=
  [0x40#8 ||| byteOf (dr + 2) <<< 4 ||| byteOf (dg + 2) <<< 2 ||| byteOf (db + 2)]

/-- `emit(0x80 | (dg+32)); emit((drg+8) << 4 | (dbg+8))` (42_formatter.md R172): the green byte first. -/
def formatLuma (dg drg dbg : Int) : List Byte :=
  [0x80#8 ||| byteOf (dg + 32), byteOf (drg + 8) <<< 4 ||| byteOf (dbg + 8)]

/-- `emit(0xC0 | (n - 1))` (42_formatter.md R173). -/
def formatRun (n : Nat) : List Byte := [0xC0#8 ||| byteOf ((n : Int) - 1)]

/-- `emit(0xFE); emit(r); emit(g); emit(b)` (42_formatter.md R174). -/
def formatRgb (r g b : Byte) : List Byte := [0xFE#8, r, g, b]

/-- `emit(0xFF); emit(r); emit(g); emit(b); emit(a)` (42_formatter.md R175). -/
def formatRgba (r g b a : Byte) : List Byte := [0xFF#8, r, g, b, a]

end Sys2Proof.Machine
end

