-- ==== Sys2Proof/Machine/Session.lean ====
section
/-! DEFINITION. The session commands INIT and FINALIZE (40_session.md), and the flush of a pending run, which
FINALIZE and PIXEL share. -/

namespace Sys2Proof.Machine

/-- Flush: where a run is pending, emit its RUN record and set `run` to 0 (00_scope.md R16; 41_encode_pixel.md R139;
40_session.md R113). -/
def flushRun (s : State) : State :=
  if s.run = 0#6 then s else (s.emit (formatRun s.run.toNat)).setRun 0#6

/-- INIT t (40_session.md R111): valid in every phase, emits nothing, a pending run is discarded.  The whole cache is
clear before the next command (R112). -/
def execInit (t : Byte) (s : State) : Host.Outcome State Fault Refusal :=
  .next (((((s.setPrev initialPixel).setRun 0#6).cacheClear).setThr t).setPhase .active)

/-- FINALIZE (40_session.md R113): in Finalized it changes nothing (R115). -/
def execFinalize (s : State) : Host.Outcome State Fault Refusal :=
  match s.phase with
  | .unconfigured => .next (s.raiseFault .notInitialised)
  | .active => .next ((flushRun s).setPhase .finalized)
  | .finalized => .next (s.setPhase .finalized)

end Sys2Proof.Machine
end

