-- ==== Sys2Proof/Machine/Pixel.lean ====
section
/-! DEFINITION. PIXEL (41_encode_pixel.md): the selector (R135), the run accumulator (R137, R138) and the steps of
`encode_pixel` in the document's order (R136). -/

namespace Sys2Proof.Machine

/-- What the opcode selector chooses for a pixel, in the order of priority of 41_encode_pixel.md R135 (row 2, the flush,
goes before every choice but the first). -/
inductive Choice where
  /-- Row 1: the pixel is near and joins the run. -/
  | continueRun
  /-- Row 3: the cache holds the pixel. -/
  | index
  /-- Row 4. -/
  | diff
  /-- Row 5. -/
  | luma
  /-- Row 6. -/
  | rgb
  /-- Row 7: alpha changed. -/
  | rgba
  deriving DecidableEq, Repr

/-- Rows 4 to 7 of 41_encode_pixel.md R135: the record of a pixel that misses the cache (R142 to R144). -/
def selectMiss (px prev : Pixel) : Choice :=
  if px.a = prev.a then
    if diffOk px prev then .diff else if lumaOk px prev then .luma else .rgb
  else .rgba

/-- The selector (41_encode_pixel.md R135): `slot` is the pixel the cache holds at `hash(px)`. -/
def select (px prev : Pixel) (thr : Byte) (slot : Pixel) : Choice :=
  if near px prev thr then .continueRun else if slot = px then .index else selectMiss px prev

/-- The bytes of the chosen record for the pixel itself (41_encode_pixel.md R136 steps 3 and 4). -/
def choiceBytes (px prev : Pixel) : Choice → List Byte
  | .continueRun => []
  | .index => formatIndex (pixelHash px)
  | .diff => formatDiff (deltaR px prev) (deltaG px prev) (deltaB px prev)
  | .luma => formatLuma (deltaG px prev) (deltaRG px prev) (deltaBG px prev)
  | .rgb => formatRgb px.r px.g px.b
  | .rgba => formatRgba px.r px.g px.b px.a

/-- Step 1 (41_encode_pixel.md R137, R138): one more pixel in the run; at 62 the RUN record comes out and the count
goes back to 0.  `prev` and the cache stay. -/
def continueRun (s : State) : State :=
  if s.run.toNat + 1 = Config.runCap then (s.emit (formatRun Config.runCap)).setRun 0#6
  else s.setRun (BitVec.ofNat 6 (s.run.toNat + 1))

/-- Step 3 on a miss: write the slot, whatever record follows (41_encode_pixel.md R141).  A hit writes nothing
(R140). -/
def updateCache (px : Pixel) (c : Choice) (s : State) : State :=
  match c with
  | .continueRun => s
  | .index => s
  | .diff => s.cacheWrite (pixelHash px) px
  | .luma => s.cacheWrite (pixelHash px) px
  | .rgb => s.cacheWrite (pixelHash px) px
  | .rgba => s.cacheWrite (pixelHash px) px

/-- Steps 2 to 5 for a pixel that is not near (41_encode_pixel.md R139 to R145): flush, cache, record, `prev <- px`.
The deltas are against `prev`, the run's anchor. -/
def codePixel (px : Pixel) (c : Choice) (s : State) : State :=
  ((updateCache px c (flushRun s)).emit (choiceBytes px s.prev c)).setPrev px

/-- PIXEL in phase Active: the selector's choice, carried out. -/
def encodePixel (px : Pixel) (s : State) : State :=
  match select px s.prev s.thr (s.cacheRead (pixelHash px)) with
  | .continueRun => continueRun s
  | c => codePixel px c s

/-- PIXEL r,g,b,a (41_encode_pixel.md R136). -/
def execPixel (px : Pixel) (s : State) : Host.Outcome State Fault Refusal :=
  match s.phase with
  | .unconfigured => .next (s.raiseFault .notInitialised)
  | .active => .next (encodePixel px s)
  | .finalized => .next (s.raiseFault .pixelAfterFinalize)

end Sys2Proof.Machine
end

