-- ==== Sys2Proof/Machine/Records.lean ====
section
/-! DEFINITION. The meanings of the six record instructions (42_formatter.md R170 to R175).  "No record writes any
state other than `outq`, and no record raises a fault." -/

namespace Sys2Proof.Machine

/-- INDEX slot (42_formatter.md R170). -/
def execIndex (slot : Slot) (s : State) : Host.Outcome State Fault Refusal := .next (s.emit (formatIndex slot))

/-- DIFF dr,dg,db (42_formatter.md R171). -/
def execDiff (dr dg db : Int) (s : State) : Host.Outcome State Fault Refusal :=
  .next (s.emit (formatDiff dr dg db))

/-- LUMA dg,drg,dbg (42_formatter.md R172). -/
def execLuma (dg drg dbg : Int) (s : State) : Host.Outcome State Fault Refusal :=
  .next (s.emit (formatLuma dg drg dbg))

/-- RUN n (42_formatter.md R173).  The record does not touch `run`: "the caller sets `run <- 0`". -/
def execRun (n : Nat) (s : State) : Host.Outcome State Fault Refusal := .next (s.emit (formatRun n))

/-- RGB r,g,b (42_formatter.md R174). -/
def execRgb (r g b : Byte) (s : State) : Host.Outcome State Fault Refusal := .next (s.emit (formatRgb r g b))

/-- RGBA r,g,b,a (42_formatter.md R175). -/
def execRgba (r g b a : Byte) (s : State) : Host.Outcome State Fault Refusal :=
  .next (s.emit (formatRgba r g b a))

end Sys2Proof.Machine
end

