-- ==== Sys2Proof/Machine/Reserved.lean ====
section
/-! DEFINITION. The reserved command codes (30_encoding.md R87): each raises ReservedCommand and does nothing else
(60_exceptions.md R220, R221). -/

namespace Sys2Proof.Machine

/-- Command code 0b000. -/
def execReserved000 (s : State) : Host.Outcome State Fault Refusal := .next (s.raiseFault .reservedCommand)

/-- Command code 0b110. -/
def execReserved110 (s : State) : Host.Outcome State Fault Refusal := .next (s.raiseFault .reservedCommand)

/-- Command code 0b111. -/
def execReserved111 (s : State) : Host.Outcome State Fault Refusal := .next (s.raiseFault .reservedCommand)

end Sys2Proof.Machine
end

