-- ==== Sys2Proof/Machine/Dispatch.lean ====
section
/-! DEFINITION. The dispatch of an instruction to its meaning. -/

namespace Sys2Proof.Machine

/-- The effect of one accepted command, or of one record run by the formatter. -/
def exec (i : Instr) (s : State) : Host.Outcome State Fault Refusal :=
  match i with
  | .init t => Sys2Proof.Machine.execInit t s
  | .pixel px => Sys2Proof.Machine.execPixel px s
  | .finalize => Sys2Proof.Machine.execFinalize s
  | .header w h c => Sys2Proof.Machine.execHeader w h c s
  | .footer => Sys2Proof.Machine.execFooter s
  | .reserved000 => Sys2Proof.Machine.execReserved000 s
  | .reserved110 => Sys2Proof.Machine.execReserved110 s
  | .reserved111 => Sys2Proof.Machine.execReserved111 s
  | .index slot => Sys2Proof.Machine.execIndex slot s
  | .diff dr dg db => Sys2Proof.Machine.execDiff dr dg db s
  | .luma dg drg dbg => Sys2Proof.Machine.execLuma dg drg dbg s
  | .run n => Sys2Proof.Machine.execRun n s
  | .rgb r g b => Sys2Proof.Machine.execRgb r g b s
  | .rgba r g b a => Sys2Proof.Machine.execRgba r g b a s

end Sys2Proof.Machine
end

