-- ==== Sys2Proof/Machine/Ports.lean ====
section
/-! DEFINITION. The block's ports and what one rising edge of `clk` does (70_reset_and_hazards.md R250, R255 to R257).
Busy cycles are left out (log entry 7): the block is ready whenever R255 lets it be. -/

namespace Sys2Proof.Machine

/-- The input pins at the coming edge.  Where the schedule is exhausted the environment does nothing new: no reset,
what is offered stays offered, and the sink is not ready (log entry 1). -/
def State.pinsNow (s : State) : Pins :=
  match s.inputs with
  | p :: _ => p
  | [] => { rst := false, cmd := s.held, outReady := false }

/-- `fault = 0` and `outq` empty: what `cmd_ready` needs of the state (70_reset_and_hazards.md R255). -/
def State.ready (s : State) : Bool := !s.fault && s.outq.isEmpty

/-- `cmd_ready` (70_reset_and_hazards.md R255). -/
def cmdReady (p : Pins) (s : State) : Bool := !p.rst && s.ready

/-- `out_valid` (70_reset_and_hazards.md R256). -/
def outValid (p : Pins) (s : State) : Bool := !p.rst && !s.outq.isEmpty

/-- `out_byte`, while `out_valid = 1`: the head of `outq` (70_reset_and_hazards.md R256). -/
def outByte (p : Pins) (s : State) : Option Byte := if outValid p s then s.outq.head? else none

/-- Does the host break its duty to keep an offered command stable until it is accepted
(70_reset_and_hazards.md R257)? -/
def offerChanged (held cmd : Option CommandWord) : Bool :=
  match held with
  | none => false
  | some w => decide (cmd ≠ some w)

/-- The output handshake at an edge (70_reset_and_hazards.md R256). -/
def outputEdge (p : Pins) (s : State) : State := if outValid p s && p.outReady then s.transfer else s

/-- The command handshake at an edge where `cmd_ready = 1` (70_reset_and_hazards.md R255): an offered command is
accepted and takes effect as one atomic step; nothing stays offered. -/
def commandEdge (p : Pins) (s : State) : Host.Outcome State Fault Refusal :=
  match p.cmd with
  | none => .next (s.setHeld none)
  | some w => exec (decodeCommand w) (s.setHeld none)

/-- One rising edge of `clk`, given its input pins: the host's duty (R257), reset (R250), the command handshake (R255)
or the output handshake (R256).  A command is accepted only with `outq` empty and a byte is transferred only from a
non-empty `outq`, so no edge does both. -/
def clockEdge (p : Pins) (s : State) : Host.Outcome State Fault Refusal :=
  if offerChanged s.held p.cmd then .refused .offerChanged
  else if p.rst then .next ((s.setHeld p.cmd).resetBlock)
  else if cmdReady p s then commandEdge p s
  else .next (outputEdge p (s.setHeld p.cmd))

/-- Run the bytes at the formatter's input as one record (log entry 8). -/
def formatterStep (bytes : List Byte) (s : State) : Host.Outcome State Fault Refusal :=
  match decodeRecord bytes with
  | .ok (i, _) => exec i s.clearFormatterIn
  | .error e => .fault (.undecodable e)

/-- One step of the block: a clock edge; or, where bytes stand at the formatter's input and the block is ready, that
record (log entries 8 and 9). -/
def blockStep (s : State) : Host.Outcome State Fault Refusal :=
  match s.formatterIn with
  | none => clockEdge s.pinsNow s.advance
  | some bytes => if s.ready then formatterStep bytes s else clockEdge s.pinsNow s.advance

/-- Make the opcode-table word `w` the instruction the next step runs (log entry 16): a command word is offered at the
next edge, record bytes stand at the formatter's input; the block is made ready for it and no other command is held. -/
def placeInstr (s : State) (nbits w : Nat) : State :=
  let ready := { s with outq := [], fault := false, faultCode := 0#3, held := none, formatterIn := none }
  if isRecordRow nbits then { ready with formatterIn := some (tableBytes nbits w) }
  else { ready with inputs := ⟨false, some (tableCommand nbits w), false⟩ :: s.inputs }

end Sys2Proof.Machine
end

