-- ==== Sys2Proof/Machine/Step.lean ====
section
/-! DEFINITION. The step of the machine, and the placing of an instruction where the step takes its next one. -/

namespace Sys2Proof.Machine

/-- One step: one rising edge of `clk`, or one record at the formatter's input. -/
def step (s : State) : Host.Outcome State Fault Refusal := blockStep s

/-- `s` with the instruction of the opcode-table word `w` next to run (log entry 16). -/
def State.withFetchWord (s : State) (nbits w : Nat) : State := placeInstr s nbits w

end Sys2Proof.Machine
end

