-- ==== Sys2Proof/Machine/Stream.lean ====
section
/-! DEFINITION. The transaction view (00_scope.md R14, 20_memory.md R70): commands one after another, each with all its
bytes transferred to the sink before the next is accepted. -/

namespace Sys2Proof.Machine

/-- `n` steps, stopping at the first fault or refusal. -/
def stepMany : Nat → State → Host.Outcome State Fault Refusal
  | 0, s => .next s
  | n + 1, s =>
    match step s with
    | .next t => stepMany n t
    | .fault r => .fault r
    | .refused r => .refused r

/-- One command at transaction level: the bytes before it are transferred (70_reset_and_hazards.md R255), it takes
effect, its own bytes are transferred.  A faulted block never accepts it (60_exceptions.md R222). -/
def transact (i : Instr) (s : State) : Host.Outcome State Fault Refusal :=
  if s.fault then .next s.drain
  else
    match exec i s.drain with
    | .next t => .next t.drain
    | .fault r => .fault r
    | .refused r => .refused r

/-- A sequence of commands at transaction level. -/
def transactAll : List Instr → State → Host.Outcome State Fault Refusal
  | [], s => .next s
  | i :: rest, s =>
    match transact i s with
    | .next t => transactAll rest t
    | .fault r => .fault r
    | .refused r => .refused r

/-- The encoding of the pixels of a session: INIT, the pixels in order, FINALIZE (43_framing.md R204 without the
framing commands). -/
def sessionCommands (t : Byte) (pixels : List Pixel) : List Instr :=
  .init t :: (pixels.map .pixel ++ [.finalize])

/-- The pseudo-instruction IMAGE w,h,c,t with a pixel list (30_encoding.md R89). -/
def imageCommands (w h : Dim) (c t : Byte) (pixels : List Pixel) : List Instr :=
  .header w h c :: (sessionCommands t pixels ++ [.footer])

/-- The host's duty for a well-formed file (43_framing.md R204): exactly `w·h` pixels.  The block does not check
it. -/
def imageWellFormed (w h : Dim) (pixels : List Pixel) : Bool := decide (pixels.length = w.toNat * h.toNat)

end Sys2Proof.Machine
end

