-- ==== Sys2Proof/Machine/Assembler.lean ====
section
/-! DEFINITION. The spec's notation: assembler lines and the text of a command word (30_encoding.md R88), and the text
of records (R100).  Notation only, no behaviour (92_eei_decisions.md D23).  Text is a list of characters. -/

namespace Sys2Proof.Machine

/-! ### Writing -/

/-- A number in decimal. -/
def decimalText (n : Nat) : List Char := Nat.toDigits 10 n

/-- A signed number in decimal. -/
def signedText : Int → List Char
  | .ofNat n => decimalText n
  | .negSucc n => '-' :: decimalText (n + 1)

/-- Operands, separated by commas. -/
def operandsText : List (List Char) → List Char
  | [] => []
  | [x] => x
  | x :: y :: rest => x ++ ',' :: operandsText (y :: rest)

/-- A name followed by its operands. -/
def lineText (name : List Char) (operands : List (List Char)) : List Char :=
  if operands.isEmpty then name else name ++ ' ' :: operandsText operands

/-- The `k` low hexadecimal digits of `n`, upper case, most significant first. -/
def hexText : Nat → Nat → List Char
  | 0, _ => []
  | k + 1, n => hexText k (n / 16) ++ [(Nat.digitChar (n % 16)).toUpper]

/-- The `k` low binary digits of `n`, most significant first. -/
def binaryText : Nat → Nat → List Char
  | 0, _ => []
  | k + 1, n => binaryText k (n / 2) ++ [Nat.digitChar (n % 2)]

/-- A command word as `op:data`: three binary digits, a colon, 18 hexadecimal digits (30_encoding.md R88). -/
def wordText (w : CommandWord) : List Char :=
  binaryText 3 (commandOp w).toNat ++ ':' :: hexText 18 (w.extractLsb' 0 72).toNat

/-- The text of an instruction: commands as in 30_encoding.md R88, records as in R100.  A reserved code has no syntax
of its own; it is written as its command word. -/
def instrText : Instr → List Char
  | .init t => lineText ['I', 'N', 'I', 'T'] [decimalText t.toNat]
  | .pixel px => lineText ['P', 'I', 'X', 'E', 'L']
      [decimalText px.r.toNat, decimalText px.g.toNat, decimalText px.b.toNat, decimalText px.a.toNat]
  | .finalize => ['F', 'I', 'N', 'A', 'L', 'I', 'Z', 'E']
  | .header w h c => lineText ['H', 'E', 'A', 'D', 'E', 'R']
      [decimalText w.toNat, decimalText h.toNat, decimalText c.toNat]
  | .footer => ['F', 'O', 'O', 'T', 'E', 'R']
  | .reserved000 => wordText (commandWord 0#3 0#72)
  | .reserved110 => wordText (commandWord 6#3 0#72)
  | .reserved111 => wordText (commandWord 7#3 0#72)
  | .index slot => lineText ['I', 'N', 'D', 'E', 'X'] [decimalText slot.toNat]
  | .diff dr dg db => lineText ['D', 'I', 'F', 'F'] [signedText dr, signedText dg, signedText db]
  | .luma dg drg dbg => lineText ['L', 'U', 'M', 'A'] [signedText dg, signedText drg, signedText dbg]
  | .run n => lineText ['R', 'U', 'N'] [decimalText n]
  | .rgb r g b => lineText ['R', 'G', 'B'] [decimalText r.toNat, decimalText g.toNat, decimalText b.toNat]
  | .rgba r g b a => lineText ['R', 'G', 'B', 'A']
      [decimalText r.toNat, decimalText g.toNat, decimalText b.toNat, decimalText a.toNat]

/-! ### Reading -/

/-- The value of a digit in the given base. -/
def digitValue (base : Nat) (c : Char) : Option Nat :=
  let v :=
    if '0' ≤ c ∧ c ≤ '9' then some (c.toNat - '0'.toNat)
    else if 'a' ≤ c ∧ c ≤ 'f' then some (c.toNat - 'a'.toNat + 10)
    else if 'A' ≤ c ∧ c ≤ 'F' then some (c.toNat - 'A'.toNat + 10)
    else none
  v.filter fun n => decide (n < base)

/-- Digits after a value already read. -/
def readDigits (base acc : Nat) : List Char → Option Nat
  | [] => some acc
  | c :: rest => (digitValue base c).bind fun d => readDigits base (acc * base + d) rest

/-- A number: decimal, or hexadecimal with `0x` (30_encoding.md R88). -/
def readNumber : List Char → Option Nat
  | [] => none
  | '0' :: 'x' :: c :: rest => readDigits 16 0 (c :: rest)
  | c :: rest => readDigits 10 0 (c :: rest)

/-- The parts of a text between separators. -/
def splitAt (sep : Char) : List Char → List (List Char)
  | [] => [[]]
  | c :: rest =>
    if c = sep then [] :: splitAt sep rest
    else
      match splitAt sep rest with
      | [] => [[c]]
      | part :: parts => (c :: part) :: parts

/-- A number that fits in `n` bits. -/
def readField (n : Nat) (text : List Char) : Option (BitVec n) :=
  (readNumber text).bind fun v => if v < 2 ^ n then some (BitVec.ofNat n v) else none

/-- The command of an assembler line (30_encoding.md R88).  A number too large for its operand is refused
(log entry 20). -/
def readCommand (line : List Char) : Option Instr :=
  match splitAt ' ' line with
  | [['I', 'N', 'I', 'T'], ops] =>
    match splitAt ',' ops with
    | [t] => (readField 8 t).map .init
    | _ => none
  | [['P', 'I', 'X', 'E', 'L'], ops] =>
    match splitAt ',' ops with
    | [r, g, b, a] => (readField 8 r).bind fun r => (readField 8 g).bind fun g => (readField 8 b).bind fun b =>
        (readField 8 a).map fun a => .pixel ⟨r, g, b, a⟩
    | _ => none
  | [['F', 'I', 'N', 'A', 'L', 'I', 'Z', 'E']] => some .finalize
  | [['H', 'E', 'A', 'D', 'E', 'R'], ops] =>
    match splitAt ',' ops with
    | [w, h, c] => (readField 32 w).bind fun w => (readField 32 h).bind fun h =>
        (readField 8 c).map fun c => .header w h c
    | _ => none
  | [['F', 'O', 'O', 'T', 'E', 'R']] => some .footer
  | _ => none

/-- Assemble a line: its command word, every ignored bit 0 (30_encoding.md R88). -/
def assemble (line : List Char) : Option Encoded := (readCommand line).map encode

end Sys2Proof.Machine
end

