-- ==== Sys2Proof/Machine/Reference.lean ====
section
/-! DEFINITION. The reference decoding of 42_formatter.md R190, "for checking only": no part of the block, used to
state what the block's output says.  On RUN it leaves the cache alone, one of the two policies that
93_implementation_defined.md I13 allows (log entry 19); a sum outside 0..255, which no output of the block makes, it
wraps modulo 256 (log entry 24). -/

namespace Sys2Proof.Machine

/-- What the decoder keeps: `prev` and 64 slots. -/
structure RefDecoder where
  prev : Pixel
  cache : Vector Pixel 64
  deriving DecidableEq, Repr

/-- The decoder before the first record, as INIT leaves the encoder (42_formatter.md R190). -/
def refStart : RefDecoder := ⟨initialPixel, Vector.replicate 64 zeroPixel⟩

/-- "otherwise: output px; cache[hash(px)] <- px; prev <- px". -/
def refPixel (px : Pixel) (d : RefDecoder) : List Pixel × RefDecoder :=
  ([px], ⟨px, d.cache.set (pixelHash px).toNat px (pixelHash px).isLt⟩)

/-- One record: the pixels it stands for, and the decoder after it (42_formatter.md R190).  None where the instruction
is no record.  DESIGN CHOICE: R190 writes exact sums and gives no result where a channel of `prev` plus a DIFF or LUMA
delta leaves 0..255, which no output of this block makes; there `byteOf` keeps the low 8 bits (log entry 24). -/
def refRecord (i : Instr) (d : RefDecoder) : Option (List Pixel × RefDecoder) :=
  match i with
  | .init _ => none
  | .pixel _ => none
  | .finalize => none
  | .header _ _ _ => none
  | .footer => none
  | .reserved000 => none
  | .reserved110 => none
  | .reserved111 => none
  | .index slot => some (refPixel (d.cache[slot.toNat]'slot.isLt) d)
  | .diff dr dg db =>
    some (refPixel ⟨byteOf (d.prev.r.toNat + dr), byteOf (d.prev.g.toNat + dg), byteOf (d.prev.b.toNat + db),
      d.prev.a⟩ d)
  | .luma dg drg dbg =>
    some (refPixel ⟨byteOf (d.prev.r.toNat + dg + drg), byteOf (d.prev.g.toNat + dg),
      byteOf (d.prev.b.toNat + dg + dbg), d.prev.a⟩ d)
  | .run n => some (List.replicate n d.prev, d)
  | .rgb r g b => some (refPixel ⟨r, g, b, d.prev.a⟩ d)
  | .rgba r g b a => some (refPixel ⟨r, g, b, a⟩ d)

/-- The pixels of a byte sequence, record by record, with at most `fuel` records.  None where the bytes do not end
with a record. -/
def refDecode : Nat → List Byte → RefDecoder → Option (List Pixel × RefDecoder)
  | _, [], d => some ([], d)
  | 0, _ :: _, _ => none
  | fuel + 1, b0 :: rest, d =>
    match decodeRecord (b0 :: rest) with
    | .error _ => none
    | .ok (i, rest') =>
      match refRecord i d with
      | none => none
      | some (out, d') => (refDecode fuel rest' d').map fun p => (out ++ p.1, p.2)

/-- The pixels of a byte sequence: every record has at least one byte, so its length is fuel enough. -/
def refDecodeBytes (bytes : List Byte) (d : RefDecoder) : Option (List Pixel × RefDecoder) :=
  refDecode bytes.length bytes d

/-- The decoder that stands where the encoder stands. -/
def State.asDecoder (s : State) : RefDecoder := ⟨s.prev, s.cache⟩

end Sys2Proof.Machine
end

