-- ==== Sys2Proof/Safety.lean ====
section
/-! DEFINITION. What holds of the block at every command boundary, in the terms of the claims. -/

namespace Sys2Proof.Machine

/-- In a session the pending run count is at most 61 (41_encode_pixel.md R150). -/
def State.RunBounded (s : State) : Prop := s.phase ≠ .unconfigured → s.run.toNat ≤ 61

/-- No run is pending in phase Finalized (40_session.md R113). -/
def State.FinalizedIdle (s : State) : Prop := s.phase = .finalized → s.run = 0#6

/-- `fault_code` is 0 exactly when `fault` is, and is never 5, 6 or 7 (60_exceptions.md R220). -/
def State.FaultCodeUsed (s : State) : Prop := (s.fault = false ↔ s.faultCode = 0#3) ∧ s.faultCode.toNat ≤ 4

/-- A faulted block has nothing to transfer (60_exceptions.md R221, R222). -/
def State.FaultQuiet (s : State) : Prop := s.fault = true → s.outq = []

/-- `outq` never holds more than the 14 header bytes (10_state.md R40). -/
def State.OutqBounded (s : State) : Prop := s.outq.length ≤ Config.hdrBytes

/-- In a session every slot holds the zero pixel or a pixel whose hash is the slot (41_encode_pixel.md R151). -/
def State.CacheHashed (s : State) : Prop :=
  s.phase ≠ .unconfigured → ∀ i : Slot, s.cacheRead i = zeroPixel ∨ pixelHash (s.cacheRead i) = i

/-- The slot of `prev` holds `prev` (41_encode_pixel.md R151). -/
def State.AnchorCached (s : State) : Prop := s.cacheRead (pixelHash s.prev) = s.prev

/-- In a session `prev` is the initial pixel or is held by its slot (41_encode_pixel.md R151). -/
def State.AnchorKnown (s : State) : Prop := s.phase ≠ .unconfigured → s.prev = initialPixel ∨ s.AnchorCached

/-- What every step keeps. -/
structure State.Inv (s : State) : Prop where
  runBounded : s.RunBounded
  finalizedIdle : s.FinalizedIdle
  faultCodeUsed : s.FaultCodeUsed
  faultQuiet : s.FaultQuiet
  outqBounded : s.OutqBounded
  cacheHashed : s.CacheHashed
  anchorKnown : s.AnchorKnown

/-- The two states differ at most in `prev`, `run`, `cache` and `thr`, the elements that hold no value before INIT
(10_state.md R44). -/
def SameButUnwritten (s t : State) : Prop :=
  s.phase = t.phase ∧ s.fault = t.fault ∧ s.faultCode = t.faultCode ∧ s.outq = t.outq ∧ s.sink = t.sink
    ∧ s.inputs = t.inputs ∧ s.held = t.held ∧ s.formatterIn = t.formatterIn ∧ s.freeIdx = t.freeIdx

/-- The two states have the same encoder state: `prev`, `run`, `cache`, `thr` and `phase` (43_framing.md R202). -/
def SameEncoder (s t : State) : Prop :=
  s.prev = t.prev ∧ s.run = t.run ∧ s.cache = t.cache ∧ s.thr = t.thr ∧ s.phase = t.phase

/-- The environment's fields of the two states agree. -/
def SameEnvironment (s t : State) : Prop :=
  s.sink = t.sink ∧ s.inputs = t.inputs ∧ s.held = t.held ∧ s.formatterIn = t.formatterIn ∧ s.freeIdx = t.freeIdx

/-- `outq` once a pending run is flushed: the RUN byte `0xC0 | (run - 1)` where `run > 0` (41_encode_pixel.md R139). -/
def State.flushedOutq (s : State) : List Byte :=
  if s.run = 0#6 then s.outq else s.outq ++ [0xC0#8 ||| BitVec.ofNat 8 (s.run.toNat - 1)]

/-- Every pixel of `out` has its counterpart in `src` within the threshold, alpha equal (41_encode_pixel.md R149). -/
def WithinThreshold (thr : Byte) (src out : List Pixel) : Prop :=
  List.Forall₂ (fun p q => near p q thr = true) src out

end Sys2Proof.Machine
end

