-- ==== Sys2Proof/Certificates/Slice0/Obligations.lean ====
section
/-! DEFINITION. The statements for the provers, from the numbered rules of spec/. -/

open Sys2Proof Sys2Proof.Machine

/-! ## Encodings -/

/-- Words written out from 95_test_vectors.md V5 to V10 and 30_encoding.md R80 to R97 decode to what they stand
for. -/
def Obligations.DecodesSpecWords : Prop :=
  decodeCommand 0x1000000000000000000#75 = .init 0#8 ∧
  decodeCommand 0x10000000000000000FF#75 = .init 255#8 ∧
  decodeCommand 0x1FFFFFFFFFFFFFFFF00#75 = .init 0#8 ∧
  decodeCommand 0x200000000000A0A0AFF#75 = .pixel ⟨10#8, 10#8, 10#8, 255#8⟩ ∧
  decodeCommand 0x3000000000000000000#75 = .finalize ∧
  decodeCommand 0x4000000020000000104#75 = .header 2#32 1#32 4#8 ∧
  decodeCommand 0x5000000000000000000#75 = .footer ∧
  decodeCommand 0x0000000000000000000#75 = .reserved000 ∧
  decodeCommand 0x6000000000000000000#75 = .reserved110 ∧
  decodeCommand 0x7000000000000000000#75 = .reserved111 ∧
  decodeRecord [0x17#8] = .ok (.index 23#6, []) ∧
  decodeRecord [0x4D#8] = .ok (.diff (-2) 1 (-1), []) ∧
  decodeRecord [0xBE#8, 0x2F#8] = .ok (.luma 30 (-6) 7, []) ∧
  decodeRecord [0xE5#8] = .ok (.run 38, []) ∧
  decodeRecord [0xFE#8, 0x64#8, 0x64#8, 0x64#8] = .ok (.rgb 100#8 100#8 100#8, []) ∧
  decodeRecord [0xFF#8, 0x0A#8, 0x0A#8, 0x0A#8, 0x80#8] = .ok (.rgba 10#8 10#8 10#8 128#8, [])

/-- Decoding an encoded well-formed instruction gives it back, for every instruction and every operand value
(30_encoding.md R80 to R98). -/
def Obligations.DecodeOfEncode : Prop :=
  ∀ i : Instr, wellFormed i = true → decode (encode i) = .ok i

/-- The other direction: the encoding of a decoded command word is the word with its ignored bits 0
(30_encoding.md R86, R88), and the encoding of a decoded record is exactly the bytes it was read from (R99). -/
def Obligations.EncodeOfDecode : Prop :=
  (∀ w : CommandWord, encode (decodeCommand w) = .command (w &&& commandUsedBits (commandOp w))) ∧
  (∀ (bytes : List Byte) (i : Instr) (rest : List Byte), decodeRecord bytes = .ok (i, rest) →
    ∃ own, encode i = .record own ∧ bytes = own ++ rest)

/-- Whatever decodes is well formed: every field value stands for an operand in its range (30_encoding.md R98,
R99). -/
def Obligations.DecodedIsWellFormed : Prop :=
  ∀ (e : Encoded) (i : Instr), decode e = .ok i → wellFormed i = true

/-- 30_encoding.md R91: the first byte selects the record and its length, the two 8-bit tags first. -/
def Obligations.FirstByteSelectsRecord : Prop :=
  (∀ (r g b : Byte) (rest : List Byte), decodeRecord (0xFE#8 :: r :: g :: b :: rest) = .ok (.rgb r g b, rest)) ∧
  (∀ (r g b a : Byte) (rest : List Byte),
    decodeRecord (0xFF#8 :: r :: g :: b :: a :: rest) = .ok (.rgba r g b a, rest)) ∧
  (∀ (b0 : Byte) (rest : List Byte), b0.extractLsb' 6 2 = 0#2 →
    ∃ slot, decodeRecord (b0 :: rest) = .ok (.index slot, rest)) ∧
  (∀ (b0 : Byte) (rest : List Byte), b0.extractLsb' 6 2 = 1#2 →
    ∃ dr dg db, decodeRecord (b0 :: rest) = .ok (.diff dr dg db, rest)) ∧
  (∀ (b0 b1 : Byte) (rest : List Byte), b0.extractLsb' 6 2 = 2#2 →
    ∃ dg drg dbg, decodeRecord (b0 :: b1 :: rest) = .ok (.luma dg drg dbg, rest)) ∧
  (∀ (b0 : Byte) (rest : List Byte), b0.extractLsb' 6 2 = 3#2 → b0.toNat ≤ 0xFD →
    ∃ n, decodeRecord (b0 :: rest) = .ok (.run n, rest))

/-- 30_encoding.md R86: two command words that differ only in ignored bits name the same command, and an edge at which
one or the other is accepted gives the same outcome. -/
def Obligations.IgnoredBitsHaveNoEffect : Prop :=
  ∀ w₁ w₂ : CommandWord, commandOp w₁ = commandOp w₂ →
    w₁ &&& commandUsedBits (commandOp w₁) = w₂ &&& commandUsedBits (commandOp w₁) →
    decodeCommand w₁ = decodeCommand w₂ ∧
    ∀ (s : State) (o : Bool) (later : List Pins), s.formatterIn = none → s.held = none → s.fault = false →
      s.outq = [] →
      step { s with inputs := ⟨false, some w₁, o⟩ :: later } = step { s with inputs := ⟨false, some w₂, o⟩ :: later }

/-- 10_state.md R31: a pixel packs as `{r, g, b, a}`, r in bits 31:24, g in 23:16, b in 15:8, a in 7:0, and packing and
unpacking are inverse.  30_encoding.md R83: the pixel of a PIXEL word has its channels at those places of `data`, so it
is the pixel packed in the word's low 32 bits. -/
def Obligations.PixelPackingIsRGBA : Prop :=
  (∀ px : Pixel, (pixelPack px).extractLsb' 24 8 = px.r ∧ (pixelPack px).extractLsb' 16 8 = px.g ∧
    (pixelPack px).extractLsb' 8 8 = px.b ∧ (pixelPack px).extractLsb' 0 8 = px.a) ∧
  (∀ px : Pixel, pixelUnpack (pixelPack px) = px) ∧ (∀ v : BitVec 32, pixelPack (pixelUnpack v) = v) ∧
  (∀ (w : CommandWord) (px : Pixel), commandOp w = 2#3 → decodeCommand w = .pixel px →
    px.r = w.extractLsb' 24 8 ∧ px.g = w.extractLsb' 16 8 ∧ px.b = w.extractLsb' 8 8 ∧ px.a = w.extractLsb' 0 8) ∧
  (∀ w : CommandWord, commandOp w = 2#3 → decodeCommand w = .pixel (pixelUnpack (w.extractLsb' 0 32)))

/-! ## The step and the ports -/

/-- A step runs the decoded instruction: where no record stands at the formatter's input, `rst` is low, the host offers
`w` (and kept its offer, if it had one) and the block is ready, the step is the effect of the command `w` names, on the
state with that edge's pins used up and nothing left offered.  That the block accepts at this very edge is the model's
choice (log entry 7): 70_reset_and_hazards.md R255 says only when `cmd_ready` may be 1, and R259 allows busy cycles. -/
def Obligations.StepRunsOfferedCommand : Prop :=
  ∀ (s : State) (w : CommandWord), s.formatterIn = none → s.pinsNow.rst = false → s.pinsNow.cmd = some w →
    (s.held = none ∨ s.held = some w) → s.fault = false → s.outq = [] →
    step s = exec (decodeCommand w) { s with inputs := s.inputs.tail, held := none }

/-- A step runs the record at the formatter's input where the block is ready.  The seam is the model's own (log
entries 8 and 9). -/
def Obligations.StepRunsFormatterRecord : Prop :=
  ∀ (s : State) (bytes : List Byte) (i : Instr) (rest : List Byte), s.formatterIn = some bytes →
    decodeRecord bytes = .ok (i, rest) → s.fault = false → s.outq = [] →
    step s = exec i { s with formatterIn := none }

/-- The instruction an opcode-table word decodes to is the one the very next step runs (log entry 16; with no busy cycle
before it, log entry 7). -/
def Obligations.FetchedWordRuns : Prop :=
  ∀ (s : State) (nbits w : Nat) (i : Instr), decodeTableWord nbits w = some i →
    step (s.withFetchWord nbits w) =
      exec i { s with outq := [], fault := false, faultCode := 0#3, held := none, formatterIn := none }

/-- 70_reset_and_hazards.md R250: what an edge with `rst` high does.  The rule gives `prev`, `run`, `cache` and `thr` no
value, so nothing is said of them. -/
def Obligations.ResetEdge : Prop :=
  ∀ s : State, s.formatterIn = none → s.pinsNow.rst = true → (s.held = none ∨ s.pinsNow.cmd = s.held) →
    cmdReady s.pinsNow s = false ∧ outValid s.pinsNow s = false ∧
    ∃ t, step s = .next t ∧ t.phase = .unconfigured ∧ t.fault = false ∧ t.faultCode = 0#3 ∧ t.outq = [] ∧
      t.sink = s.sink

/-- 70_reset_and_hazards.md R256: `out_valid` and `out_byte`; a byte is transferred where the sink is ready and stays
offered where it is not.  The host's offer, if any, is not accepted meanwhile. -/
def Obligations.OutputHandshake : Prop :=
  (∀ (p : Pins) (s : State), outValid p s = true ↔ p.rst = false ∧ s.outq ≠ []) ∧
  (∀ (p : Pins) (s : State) (b : Byte) (bs : List Byte), p.rst = false → s.outq = b :: bs →
    outByte p s = some b) ∧
  (∀ (s : State) (b : Byte) (bs : List Byte), s.formatterIn = none → s.pinsNow.rst = false →
    (s.held = none ∨ s.pinsNow.cmd = s.held) → s.outq = b :: bs →
    (s.pinsNow.outReady = true →
      step s = .next { s with outq := bs, sink := s.sink ++ [b], inputs := s.inputs.tail, held := s.pinsNow.cmd }) ∧
    (s.pinsNow.outReady = false →
      step s = .next { s with inputs := s.inputs.tail, held := s.pinsNow.cmd }))

/-- 70_reset_and_hazards.md R257: a host that changes or withdraws an offered command has no move, and this is the only
refusal of a step. -/
def Obligations.ChangedOfferHasNoMove : Prop :=
  (∀ (s : State) (w : CommandWord), s.formatterIn = none → s.held = some w → s.pinsNow.cmd ≠ some w →
    step s = .refused .offerChanged) ∧
  (∀ (s : State) (r : Refusal), step s = .refused r →
    r = .offerChanged ∧ ∃ w, s.held = some w ∧ s.pinsNow.cmd ≠ some w)

/-- The model's step faults only on bytes at the formatter's input that are no whole record (log entry 10). -/
def Obligations.StepStopsOnlyOnUndecodable : Prop :=
  ∀ (s : State) (r : Fault), step s = .fault r →
    ∃ bytes e, s.formatterIn = some bytes ∧ decodeRecord bytes = .error e ∧ r = .undecodable e

/-- An edge at which nothing is offered, nothing waits to be transferred and `rst` is low changes nothing but the
schedule (70_reset_and_hazards.md R251, R255, R256). -/
def Obligations.IdleEdgeChangesNothing : Prop :=
  ∀ s : State, s.formatterIn = none → s.pinsNow.rst = false → s.pinsNow.cmd = none → s.held = none → s.outq = [] →
    step s = .next { s with inputs := s.inputs.tail }

/-- 60_exceptions.md R222: a fault is sticky.  While it is set the block is not ready, no step with `rst` low clears
it, changes the encoder state or puts a byte in `outq`, and no command's effect clears it. -/
def Obligations.FaultIsSticky : Prop :=
  (∀ (p : Pins) (s : State), s.fault = true → cmdReady p s = false) ∧
  (∀ s t : State, s.fault = true → s.pinsNow.rst = false → step s = .next t →
    t.fault = true ∧ t.faultCode = s.faultCode ∧ SameEncoder t s ∧ (s.outq = [] → t.outq = [])) ∧
  (∀ (i : Instr) (s t : State), s.fault = true → exec i s = .next t → t.fault = true) ∧
  (∀ s t : State, s.fault = true → s.formatterIn = none → s.pinsNow.rst = true → step s = .next t →
    t.fault = false ∧ t.faultCode = 0#3)

/-- 20_memory.md R70, R67: the output is append-only.  A step with `rst` low adds bytes at the end of what was
transferred and what waits, and drops, repeats or reorders none. -/
def Obligations.OutputIsAppendOnly : Prop :=
  ∀ s t : State, s.pinsNow.rst = false → step s = .next t →
    ∃ bytes, t.sink ++ t.outq = s.sink ++ s.outq ++ bytes

/-- The transaction view is what the handshakes do (00_scope.md R14, 70_reset_and_hazards.md R255, R256): one edge that
accepts the command and then one edge a byte, with the sink ready, end in the state of `transact`.  The number of edges
is the model's choice (log entry 7: ready whenever R255 lets it be, no busy cycles); R259 allows any finite delay. -/
def Obligations.TransactionIsHandshakes : Prop :=
  ∀ (s u : State) (w : CommandWord) (later : List Pins), s.formatterIn = none → s.held = none → s.fault = false →
    s.outq = [] → transact (decodeCommand w) { s with inputs := later } = .next u →
    stepMany (u.sink.length - s.sink.length + 1)
      { s with inputs := ⟨false, some w, false⟩ ::
          (List.replicate (u.sink.length - s.sink.length) ⟨false, none, true⟩ ++ later) } = .next u

/-! ## Reset, and what every step keeps -/

/-- 70_reset_and_hazards.md R251 and 10_state.md R44: after reset the block is in phase Unconfigured with no fault and
no byte to transfer, and it waits: with no offer and no reset, every number of steps leaves it as it is (that nothing
is offered and no edge is scheduled at reset is the model's choice, log entry 1). -/
def Obligations.ResetWaitsForCommand : Prop :=
  State.reset.phase = .unconfigured ∧ State.reset.fault = false ∧ State.reset.faultCode = 0#3 ∧
  State.reset.outq = [] ∧ ∀ n, stepMany n State.reset = .next State.reset

/-- The invariant holds at reset. -/
def Obligations.ResetHasInvariant : Prop := State.reset.Inv

/-- Every step keeps the invariant, from every state that has it: the run bound (41_encode_pixel.md R150), no run
pending in Finalized, the fault codes in use (60_exceptions.md R220), a faulted block with nothing to transfer, the
bound of `outq` (10_state.md R40), the cache invariant and the anchor (41_encode_pixel.md R151). -/
def Obligations.StepKeepsInvariant : Prop := ∀ s t : State, s.Inv → step s = .next t → t.Inv

/-- 41_encode_pixel.md R150: in a session the run count is at most 61 at every command boundary; it grows by one for
each near pixel and goes to 0 on reaching 62. -/
def Obligations.RunCountStaysBounded : Prop :=
  (∀ s t : State, s.RunBounded → step s = .next t → t.RunBounded) ∧
  (∀ (px : Pixel) (s t : State), s.phase = .active → s.RunBounded → near px s.prev s.thr = true →
    exec (.pixel px) s = .next t →
    (s.run.toNat + 1 ≠ 62 → t.run.toNat = s.run.toNat + 1) ∧ (s.run.toNat + 1 = 62 → t.run.toNat = 0))

/-- 41_encode_pixel.md R151, first part: in a session every slot holds the zero pixel or a pixel that hashes to it.
INIT establishes it and every step keeps it. -/
def Obligations.SlotsHoldTheirHash : Prop :=
  (∀ (x : Byte) (s t : State), exec (.init x) s = .next t → t.CacheHashed) ∧
  (∀ s t : State, s.CacheHashed → step s = .next t → t.CacheHashed)

/-- 41_encode_pixel.md R151, second part, with R145: a non-near pixel becomes `prev` and is then held by its slot; and
every instruction but INIT keeps that the slot of the current `prev` holds `prev`.  An earlier pixel's slot may be
overwritten (R141). -/
def Obligations.AnchorStaysCached : Prop :=
  (∀ (px : Pixel) (s t : State), s.phase = .active → near px s.prev s.thr = false → exec (.pixel px) s = .next t →
    t.prev = px ∧ t.AnchorCached) ∧
  (∀ (i : Instr) (s t : State), (∀ x, i ≠ .init x) → s.AnchorCached → exec i s = .next t → t.AnchorCached)

/-- 10_state.md R44: an element without a value is never read before INIT writes it.  Two blocks in phase Unconfigured
that differ only in `prev`, `run`, `cache` and `thr` take steps with the same outcome, again up to those four, and once
a session is open nothing of the difference is left. -/
def Obligations.UnwrittenStateIsNeverRead : Prop :=
  ∀ s₁ s₂ : State, s₁.phase = .unconfigured → SameButUnwritten s₁ s₂ →
    (∀ t₁, step s₁ = .next t₁ →
      ∃ t₂, step s₂ = .next t₂ ∧ SameButUnwritten t₁ t₂ ∧ (t₁.phase ≠ .unconfigured → t₁ = t₂)) ∧
    (∀ r, step s₁ = .fault r → step s₂ = .fault r) ∧
    (∀ r, step s₁ = .refused r → step s₂ = .refused r)

/-! ## Session commands -/

/-- 40_session.md R111: INIT in every phase and every state. -/
def Obligations.InitStartsSession : Prop :=
  ∀ (x : Byte) (s : State),
    exec (.init x) s = .next
      { s with
        prev := ⟨0#8, 0#8, 0#8, 255#8⟩
        run := 0#6
        cache := Vector.replicate 64 ⟨0#8, 0#8, 0#8, 0#8⟩
        thr := x
        phase := .active }

/-- 10_state.md R45: INIT wipes the encoder state whatever the phase was, so nothing of an earlier session is left. -/
def Obligations.SessionsAreIndependent : Prop :=
  ∀ (x : Byte) (s₁ s₂ : State), s₁.fault = s₂.fault → s₁.faultCode = s₂.faultCode → s₁.outq = s₂.outq →
    SameEnvironment s₁ s₂ → exec (.init x) s₁ = exec (.init x) s₂

/-- 40_session.md R113: FINALIZE in each phase, with and without a pending run. -/
def Obligations.FinalizeFlushesRun : Prop :=
  ∀ s : State,
    (s.phase = .unconfigured → exec .finalize s = .next { s with fault := true, faultCode := 2#3 }) ∧
    (s.phase = .active → s.run = 0#6 → exec .finalize s = .next { s with phase := .finalized }) ∧
    (s.phase = .active → s.run ≠ 0#6 →
      exec .finalize s = .next
        { s with
          phase := .finalized
          run := 0#6
          outq := s.outq ++ [0xC0#8 ||| BitVec.ofNat 8 (s.run.toNat - 1)] }) ∧
    (s.phase = .finalized → exec .finalize s = .next s)

/-- 40_session.md R115: a second FINALIZE in the same session emits nothing and changes nothing. -/
def Obligations.SecondFinalizeIsNoOp : Prop :=
  ∀ s t : State, s.phase ≠ .unconfigured → exec .finalize s = .next t → exec .finalize t = .next t

/-- 40_session.md R110: the table of phases. -/
def Obligations.PhasesFollowLifecycle : Prop :=
  ∀ s t : State,
    (∀ x, exec (.init x) s = .next t → t.phase = .active) ∧
    (∀ px, exec (.pixel px) s = .next t → t.phase = s.phase ∧
      (s.phase = .unconfigured → t.fault = true ∧ t.faultCode = 2#3) ∧
      (s.phase = .finalized → t.fault = true ∧ t.faultCode = 3#3) ∧
      (s.phase = .active → t.fault = s.fault)) ∧
    (exec .finalize s = .next t →
      (s.phase = .unconfigured → t.phase = .unconfigured ∧ t.fault = true ∧ t.faultCode = 2#3) ∧
      (s.phase ≠ .unconfigured → t.phase = .finalized ∧ t.fault = s.fault)) ∧
    (∀ w h c, exec (.header w h c) s = .next t → t.phase = s.phase) ∧
    (exec .footer s = .next t → t.phase = s.phase)

/-! ## PIXEL -/

/-- 41_encode_pixel.md R130: the comparator, on exact integers; alpha must match exactly. -/
def Obligations.ComparatorIsExact : Prop :=
  ∀ (px prev : Pixel) (thr : Byte),
    near px prev thr = true ↔
      |(px.r.toNat : Int) - prev.r.toNat| ≤ thr.toNat ∧ |(px.g.toNat : Int) - prev.g.toNat| ≤ thr.toNat ∧
      |(px.b.toNat : Int) - prev.b.toNat| ≤ thr.toNat ∧ px.a = prev.a

/-- 41_encode_pixel.md R148: at threshold 255 a pixel is near exactly when its alpha matches, and no larger threshold
would make a difference. -/
def Obligations.ThresholdSaturates : Prop :=
  ∀ (px prev : Pixel),
    (near px prev 255#8 = true ↔ px.a = prev.a) ∧
    ∀ larger : Int, 255 ≤ larger →
      (near px prev 255#8 = true ↔
        |(px.r.toNat : Int) - prev.r.toNat| ≤ larger ∧ |(px.g.toNat : Int) - prev.g.toNat| ≤ larger ∧
        |(px.b.toNat : Int) - prev.b.toNat| ≤ larger ∧ px.a = prev.a)

/-- 41_encode_pixel.md R131: the hash is the sum modulo 64, the sum is at most 6630, and the rule's examples. -/
def Obligations.HashIsSumModulo64 : Prop :=
  (∀ px : Pixel,
    (pixelHash px).toNat = (px.r.toNat * 3 + px.g.toNat * 5 + px.b.toNat * 7 + px.a.toNat * 11) % 64 ∧
    px.r.toNat * 3 + px.g.toNat * 5 + px.b.toNat * 7 + px.a.toNat * 11 ≤ 6630) ∧
  pixelHash ⟨0#8, 0#8, 0#8, 0#8⟩ = 0#6 ∧ pixelHash ⟨0#8, 0#8, 0#8, 255#8⟩ = 53#6 ∧
  pixelHash ⟨10#8, 10#8, 10#8, 255#8⟩ = 11#6 ∧ pixelHash ⟨255#8, 255#8, 255#8, 255#8⟩ = 38#6

/-- 41_encode_pixel.md R132 to R134: the exact deltas and the two range tests; and R143: a pixel that passes the small
test passes the luma test. -/
def Obligations.RangeTestsAreExact : Prop :=
  ∀ px prev : Pixel, ∀ dr dg db : Int, dr = (px.r.toNat : Int) - prev.r.toNat → dg = (px.g.toNat : Int) - prev.g.toNat →
    db = (px.b.toNat : Int) - prev.b.toNat →
    (diffOk px prev = true ↔ (-2 ≤ dr ∧ dr ≤ 1) ∧ (-2 ≤ dg ∧ dg ≤ 1) ∧ (-2 ≤ db ∧ db ≤ 1)) ∧
    (lumaOk px prev = true ↔
      (-32 ≤ dg ∧ dg ≤ 31) ∧ (-8 ≤ dr - dg ∧ dr - dg ≤ 7) ∧ (-8 ≤ db - dg ∧ db - dg ≤ 7)) ∧
    (diffOk px prev = true → lumaOk px prev = true)

/-- 41_encode_pixel.md R137, R138: a near pixel only counts, and at 62 the RUN record of length 62 comes out and the
count goes back to 0.  Everything else stays, `prev` among it. -/
def Obligations.NearPixelContinuesRun : Prop :=
  ∀ (px : Pixel) (s : State), s.phase = .active → near px s.prev s.thr = true →
    (s.run.toNat + 1 < 62 → exec (.pixel px) s = .next { s with run := BitVec.ofNat 6 (s.run.toNat + 1) }) ∧
    (s.run.toNat + 1 = 62 → exec (.pixel px) s = .next { s with run := 0#6, outq := s.outq ++ [0xFD#8] })

/-- The model's choice (log entry 14), no rule of the spec: where `run` holds 62 or 63, which 10_state.md R34 and
41_encode_pixel.md R150 rule out at every command boundary of a session, a near pixel adds one in 6 bits (63 goes to 0)
and emits nothing. -/
def Obligations.RunAboveBoundCountsInSixBits : Prop :=
  ∀ (px : Pixel) (s : State), s.phase = .active → near px s.prev s.thr = true → 62 < s.run.toNat + 1 →
    exec (.pixel px) s = .next { s with run := BitVec.ofNat 6 (s.run.toNat + 1) }

/-- 41_encode_pixel.md R139: with a run pending, a non-near pixel first emits the RUN record and sets `run` to 0, and is
only then handled, against the same `prev`. -/
def Obligations.FlushComesBeforeRecord : Prop :=
  ∀ (px : Pixel) (s : State), s.phase = .active → near px s.prev s.thr = false → s.run ≠ 0#6 →
    exec (.pixel px) s =
      exec (.pixel px)
        { s with run := 0#6, outq := s.outq ++ [0xC0#8 ||| BitVec.ofNat 8 (s.run.toNat - 1)] }

/-- 41_encode_pixel.md R140: a non-near pixel that its slot holds is sent as INDEX, whatever its alpha; the cache stays,
`prev` becomes the pixel.  A slot that holds the zero pixel is hit by the zero pixel alone, and that is slot 0. -/
def Obligations.CacheHitEmitsIndex : Prop :=
  ∀ (px : Pixel) (s : State), s.phase = .active → near px s.prev s.thr = false → s.cacheRead (pixelHash px) = px →
    exec (.pixel px) s = .next
      { s with prev := px, run := 0#6, outq := s.flushedOutq ++ [(pixelHash px).setWidth 8] } ∧
    (s.cacheRead (pixelHash px) = ⟨0#8, 0#8, 0#8, 0#8⟩ → px = ⟨0#8, 0#8, 0#8, 0#8⟩ ∧ pixelHash px = 0#6)

/-- 41_encode_pixel.md R141 to R145: a non-near pixel that misses is stored in its slot, becomes `prev`, and is sent as
RGBA where alpha changed, else as DIFF, LUMA or RGB, the first whose test passes.  The deltas are against the old
`prev`. -/
def Obligations.CacheMissStoresAndEncodes : Prop :=
  ∀ (px : Pixel) (s : State) (dr dg db : Int), s.phase = .active → near px s.prev s.thr = false →
    s.cacheRead (pixelHash px) ≠ px →
    dr = (px.r.toNat : Int) - s.prev.r.toNat → dg = (px.g.toNat : Int) - s.prev.g.toNat →
    db = (px.b.toNat : Int) - s.prev.b.toNat →
    ∃ record : List Byte,
      exec (.pixel px) s = .next
        { s with
          prev := px
          run := 0#6
          cache := s.cache.set (pixelHash px).toNat px (pixelHash px).isLt
          outq := s.flushedOutq ++ record } ∧
      (px.a ≠ s.prev.a → record = [0xFF#8, px.r, px.g, px.b, px.a]) ∧
      (px.a = s.prev.a → diffOk px s.prev = true →
        record = [BitVec.ofInt 8 (0x40 + (dr + 2) * 16 + (dg + 2) * 4 + (db + 2))]) ∧
      (px.a = s.prev.a → diffOk px s.prev = false → lumaOk px s.prev = true →
        record = [BitVec.ofInt 8 (0x80 + (dg + 32)), BitVec.ofInt 8 ((dr - dg + 8) * 16 + (db - dg + 8))]) ∧
      (px.a = s.prev.a → diffOk px s.prev = false → lumaOk px s.prev = false →
        record = [0xFE#8, px.r, px.g, px.b]) ∧
      (diffOk px s.prev = true → lumaOk px s.prev = true)

/-- PIXEL outside a session (41_encode_pixel.md R136, 60_exceptions.md R220): the fault of the phase and nothing
else. -/
def Obligations.PixelOutsideSessionFaults : Prop :=
  ∀ (px : Pixel) (s : State),
    (s.phase = .unconfigured → exec (.pixel px) s = .next { s with fault := true, faultCode := 2#3 }) ∧
    (s.phase = .finalized → exec (.pixel px) s = .next { s with fault := true, faultCode := 3#3 })

/-- 41_encode_pixel.md R146: what one PIXEL emits.  A near pixel: nothing, or `FD` at the cap.  Another: the RUN record of
the pending run, where there is one, and then exactly one of INDEX, DIFF, LUMA, RGB and RGBA.  At most 6 bytes, and 6
exactly for a flush followed by RGBA.  Above 61 (never in a session, R150) `run` has no RUN record, so there only the
flush's length is stated. -/
def Obligations.PixelOutputLength : Prop :=
  ∀ (px : Pixel) (s : State), s.phase = .active →
    ∃ t bytes, exec (.pixel px) s = .next t ∧ t.outq = s.outq ++ bytes ∧ bytes.length ≤ 6 ∧
      (near px s.prev s.thr = true →
        (s.run.toNat ≠ 61 → bytes = []) ∧ (s.run.toNat = 61 → bytes = [0xFD#8])) ∧
      (near px s.prev s.thr = false → ∃ flush record i, bytes = flush ++ record ∧
        (s.run = 0#6 → flush = []) ∧ (s.run ≠ 0#6 → flush.length = 1) ∧
        (s.run ≠ 0#6 → s.run.toNat ≤ 61 → decodeRecord flush = .ok (.run s.run.toNat, [])) ∧
        decodeRecord record = .ok (i, []) ∧
        (((∃ slot, i = .index slot) ∧ record.length = 1) ∨
          ((∃ dr dg db, i = .diff dr dg db) ∧ record.length = 1) ∨
          ((∃ dg drg dbg, i = .luma dg drg dbg) ∧ record.length = 2) ∨
          ((∃ r g b, i = .rgb r g b) ∧ record.length = 4) ∨
          ((∃ r g b a, i = .rgba r g b a) ∧ record.length = 5)) ∧
        (bytes.length = 6 ↔ s.run ≠ 0#6 ∧ ∃ r g b a, i = .rgba r g b a))

/-- 41_encode_pixel.md R152: the two modes and what moves between them; a non-run record comes after any flush. -/
def Obligations.ModesChangeAsStated : Prop :=
  ∀ (px : Pixel) (s t : State), s.phase = .active → s.run.toNat ≤ 61 →
    (exec (.pixel px) s = .next t → near px s.prev s.thr = true → s.mode = .idle →
      t.mode = .accumulatingRun ∧ t.run = 1#6) ∧
    (exec (.pixel px) s = .next t → near px s.prev s.thr = true → s.mode = .accumulatingRun → s.run.toNat ≤ 60 →
      t.mode = .accumulatingRun ∧ t.run.toNat = s.run.toNat + 1) ∧
    (exec (.pixel px) s = .next t → near px s.prev s.thr = true → s.run.toNat = 61 →
      t.mode = .idle ∧ t.outq = s.outq ++ [0xFD#8]) ∧
    (exec (.pixel px) s = .next t → near px s.prev s.thr = false →
      t.mode = .idle ∧ ∃ record, record ≠ [] ∧ t.outq = s.flushedOutq ++ record) ∧
    (exec .finalize s = .next t → t.mode = .idle) ∧
    (∀ x, exec (.init x) s = .next t → t.mode = .idle ∧ t.outq = s.outq)

/-- 30_encoding.md R99: encodings that this block never emits, because the selector prefers another form
(41_encode_pixel.md R137, R143; 42_formatter.md R171): DIFF 0,0,0 (`6A`), LUMA 0,0,0 (`A0 88`), and every LUMA whose
deltas all lie in [-2, 1].  A non-near pixel's record is none of them, a near pixel's byte is none of them, and a
non-near pixel with unchanged alpha never has all deltas 0. -/
def Obligations.ZeroDeltasAreNeverSent : Prop :=
  (∀ (px prev : Pixel) (thr : Byte), near px prev thr = false → px.a = prev.a →
    ¬ (px.r.toNat = prev.r.toNat ∧ px.g.toNat = prev.g.toNat ∧ px.b.toNat = prev.b.toNat)) ∧
  (∀ (px prev slot : Pixel) (thr : Byte),
    (select px prev thr slot = .diff → ¬ (deltaR px prev = 0 ∧ deltaG px prev = 0 ∧ deltaB px prev = 0)) ∧
    (select px prev thr slot = .luma → ¬ (-2 ≤ deltaR px prev ∧ deltaR px prev ≤ 1 ∧ -2 ≤ deltaG px prev ∧
      deltaG px prev ≤ 1 ∧ -2 ≤ deltaB px prev ∧ deltaB px prev ≤ 1))) ∧
  (∀ (px : Pixel) (s : State), s.phase = .active →
    ∃ t bytes, exec (.pixel px) s = .next t ∧
      (near px s.prev s.thr = true → t.outq = s.outq ++ bytes ∧ (bytes = [] ∨ bytes = [0xFD#8])) ∧
      (near px s.prev s.thr = false → t.outq = s.flushedOutq ++ bytes ∧
        bytes ≠ [0x6A#8] ∧ bytes ≠ [0xA0#8, 0x88#8] ∧
        decodeRecord bytes ≠ .ok (.diff 0 0 0, []) ∧ decodeRecord bytes ≠ .ok (.luma 0 0 0, []) ∧
        ∀ (dr dg db : Int), -2 ≤ dr → dr ≤ 1 → -2 ≤ dg → dg ≤ 1 → -2 ≤ db → db ≤ 1 →
          decodeRecord bytes ≠ .ok (.luma dg (dr - dg) (db - dg), [])))

/-- 20_memory.md R62: the cache write policy.  A non-near miss writes the pixel into its slot and no other; a hit writes
nothing; a near pixel neither reads nor writes the cache; INIT writes every slot; nothing else touches it. -/
def Obligations.CacheWritePolicy : Prop :=
  ∀ (i : Instr) (s t : State), exec i s = .next t →
    (∀ px, i = .pixel px → s.phase = .active → near px s.prev s.thr = false → s.cacheRead (pixelHash px) ≠ px →
      t.cacheRead (pixelHash px) = px ∧ ∀ j, j ≠ pixelHash px → t.cacheRead j = s.cacheRead j) ∧
    (∀ px, i = .pixel px → (s.phase ≠ .active ∨ s.cacheRead (pixelHash px) = px) → t.cache = s.cache) ∧
    (∀ px, i = .pixel px → near px s.prev s.thr = true → t.cache = s.cache ∧
      ∀ other, exec i { s with cache := other } = .next { t with cache := other }) ∧
    (∀ x, i = .init x → ∀ j, t.cacheRead j = ⟨0#8, 0#8, 0#8, 0#8⟩) ∧
    ((∀ px, i ≠ .pixel px) → (∀ x, i ≠ .init x) → t.cache = s.cache)

/-- Who writes the encoder registers (10_state.md R32, R34, R37, R38): `thr` INIT alone; `prev` INIT and a non-near
PIXEL; `run` INIT, PIXEL and FINALIZE; `phase` INIT and FINALIZE. -/
def Obligations.RegisterWriters : Prop :=
  ∀ (i : Instr) (s t : State), exec i s = .next t →
    (t.thr ≠ s.thr → ∃ x, i = .init x) ∧
    (t.prev ≠ s.prev → (∃ x, i = .init x) ∨ ∃ px, i = .pixel px ∧ near px s.prev s.thr = false) ∧
    (t.run ≠ s.run → (∃ x, i = .init x) ∨ (∃ px, i = .pixel px) ∨ i = .finalize) ∧
    (t.phase ≠ s.phase → (∃ x, i = .init x) ∨ i = .finalize)

/-- No instruction touches the environment's fields; each appends to `outq` (20_memory.md R70).  Of a record whose
operands lie outside the ranges of 30_encoding.md R98 (RUN 0, DIFF 5,0,0) the spec says nothing, and no step runs one:
that it completes and appends is the model's choice (log entry 11). -/
def Obligations.InstructionsOnlyAppend : Prop :=
  ∀ (i : Instr) (s : State), ∃ t bytes, exec i s = .next t ∧ SameEnvironment t s ∧ t.outq = s.outq ++ bytes ∧
    bytes.length ≤ 14

/-! ## Records -/

/-- 42_formatter.md R170 to R175: each record emits the bytes of its pseudocode and changes nothing else. -/
def Obligations.RecordsEmitTheirBytes : Prop :=
  ∀ s : State,
    (∀ slot : Slot, exec (.index slot) s = .next { s with outq := s.outq ++ [slot.setWidth 8] }) ∧
    (∀ dr dg db : Int, wellFormed (.diff dr dg db) = true →
      exec (.diff dr dg db) s = .next
        { s with outq := s.outq ++ [BitVec.ofInt 8 (0x40 + (dr + 2) * 16 + (dg + 2) * 4 + (db + 2))] }) ∧
    (∀ dg drg dbg : Int, wellFormed (.luma dg drg dbg) = true →
      exec (.luma dg drg dbg) s = .next
        { s with outq := s.outq ++
            [BitVec.ofInt 8 (0x80 + (dg + 32)), BitVec.ofInt 8 ((drg + 8) * 16 + (dbg + 8))] }) ∧
    (∀ n : Nat, wellFormed (.run n) = true →
      exec (.run n) s = .next { s with outq := s.outq ++ [BitVec.ofNat 8 (0xC0 + (n - 1))] }) ∧
    (∀ r g b : Byte, exec (.rgb r g b) s = .next { s with outq := s.outq ++ [0xFE#8, r, g, b] }) ∧
    (∀ r g b a : Byte, exec (.rgba r g b a) s = .next { s with outq := s.outq ++ [0xFF#8, r, g, b, a] })

/-- The formatter's bytes are the bit layouts of 30_encoding.md R92 to R97: a well-formed record emits its encoding. -/
def Obligations.RecordsEmitTheirLayout : Prop :=
  ∀ (i : Instr) (bytes : List Byte) (s : State), wellFormed i = true → encode i = .record bytes →
    exec i s = .next { s with outq := s.outq ++ bytes }

/-- 30_encoding.md R95: a RUN record is the byte `0xC0 | (n - 1)`, and the block never emits a field of 62 or 63.  The
flush of a run of 1 to 61, by FINALIZE or by a non-near pixel, is a byte in 0xC0..0xFC, and that of the cap is 0xFD. -/
def Obligations.RunFieldIsNeverATag : Prop :=
  (∀ (n : Nat) (s : State), 1 ≤ n → n ≤ 62 →
    ∃ b : Byte, exec (.run n) s = .next { s with outq := s.outq ++ [b] } ∧ b.toNat = 0xC0 + (n - 1) ∧
      0xC0 ≤ b.toNat ∧ b.toNat ≤ 0xFD) ∧
  (∀ s : State, s.phase = .active → s.run ≠ 0#6 → s.run.toNat ≤ 61 →
    ∃ (b : Byte) (t : State), exec .finalize s = .next t ∧ t.outq = s.outq ++ [b] ∧ 0xC0 ≤ b.toNat ∧
      b.toNat ≤ 0xFC) ∧
  (∀ (px : Pixel) (s : State), s.phase = .active → s.run ≠ 0#6 → s.run.toNat ≤ 61 → near px s.prev s.thr = false →
    ∃ (b : Byte) (record : List Byte) (t : State), exec (.pixel px) s = .next t ∧ t.outq = s.outq ++ b :: record ∧
      0xC0 ≤ b.toNat ∧ b.toNat ≤ 0xFC) ∧
  (∀ (px : Pixel) (s : State), s.phase = .active → s.run.toNat = 61 → near px s.prev s.thr = true →
    ∃ t : State, exec (.pixel px) s = .next t ∧ t.outq = s.outq ++ [0xFD#8])

/-! ## Framing -/

/-- 43_framing.md R200, R201, R206: HEADER with a channel count of 3 or 4 emits the 14 bytes, width and height
unchecked and most significant byte first, and changes nothing else; with any other it faults. -/
def Obligations.HeaderEmitsFourteenBytes : Prop :=
  ∀ (w h : Dim) (c : Byte) (s : State),
    (c = 3#8 ∨ c = 4#8 →
      exec (.header w h c) s = .next
        { s with outq := s.outq ++
            [0x71#8, 0x6F#8, 0x69#8, 0x66#8,
             BitVec.ofNat 8 (w.toNat / 2 ^ 24), BitVec.ofNat 8 (w.toNat / 2 ^ 16), BitVec.ofNat 8 (w.toNat / 2 ^ 8),
             BitVec.ofNat 8 w.toNat,
             BitVec.ofNat 8 (h.toNat / 2 ^ 24), BitVec.ofNat 8 (h.toNat / 2 ^ 16), BitVec.ofNat 8 (h.toNat / 2 ^ 8),
             BitVec.ofNat 8 h.toNat,
             c, 0x00#8] }) ∧
    (c ≠ 3#8 ∧ c ≠ 4#8 → exec (.header w h c) s = .next { s with fault := true, faultCode := 4#3 })

/-- 43_framing.md R203: FOOTER emits the terminator and changes nothing else; a pending run stays pending. -/
def Obligations.FooterEmitsTerminator : Prop :=
  ∀ s : State,
    exec .footer s = .next { s with outq := s.outq ++ [0#8, 0#8, 0#8, 0#8, 0#8, 0#8, 0#8, 1#8] }

/-- 43_framing.md R202: HEADER and FOOTER read and write no encoder state, and what a PIXEL does depends on the encoder
state alone, so not on whether they were issued. -/
def Obligations.FramingIsIndependentOfEncoder : Prop :=
  (∀ (i : Instr) (s t : State), ((∃ w h c, i = .header w h c) ∨ i = .footer) → exec i s = .next t →
    SameEncoder t s) ∧
  (∀ i : Instr, ((∃ w h c, i = .header w h c) ∨ i = .footer) → ∃ (bytes : List Byte) (raises : Bool),
    ∀ s : State, exec i s = .next
      { s with
        outq := s.outq ++ bytes
        fault := s.fault || raises
        faultCode := if raises then 4#3 else s.faultCode }) ∧
  (∀ (px : Pixel) (s₁ s₂ t₁ t₂ : State), SameEncoder s₁ s₂ → exec (.pixel px) s₁ = .next t₁ →
    exec (.pixel px) s₂ = .next t₂ →
    SameEncoder t₁ t₂ ∧ ∃ bytes, t₁.outq = s₁.outq ++ bytes ∧ t₂.outq = s₂.outq ++ bytes)

/-! ## Faults -/

/-- 30_encoding.md R87, R81: `op` alone decides the command, and a reserved `op` raises ReservedCommand and does nothing
else. -/
def Obligations.OpAloneDecides : Prop :=
  ∀ w : CommandWord,
    (commandOp w = 1#3 → ∃ x, decodeCommand w = .init x) ∧
    (commandOp w = 2#3 → ∃ px, decodeCommand w = .pixel px) ∧
    (commandOp w = 3#3 → decodeCommand w = .finalize) ∧
    (commandOp w = 4#3 → ∃ x h c, decodeCommand w = .header x h c) ∧
    (commandOp w = 5#3 → decodeCommand w = .footer) ∧
    (commandOp w = 0#3 ∨ commandOp w = 6#3 ∨ commandOp w = 7#3 →
      ∀ s : State, exec (decodeCommand w) s = .next { s with fault := true, faultCode := 1#3 })

/-- The three reserved codes as instructions (30_encoding.md R87, 60_exceptions.md R220, R221). -/
def Obligations.ReservedCodesFault : Prop :=
  ∀ (i : Instr) (s : State), i = .reserved000 ∨ i = .reserved110 ∨ i = .reserved111 →
    exec i s = .next { s with fault := true, faultCode := 1#3 }

/-- 60_exceptions.md R220, R221: exactly these conditions raise a fault, each with its code, and a command that raises
one does nothing else. -/
def Obligations.FaultEntryIsPrecise : Prop :=
  ∀ (i : Instr) (s t : State), s.fault = false → exec i s = .next t →
    (t.fault = true → t = { s with fault := true, faultCode := t.faultCode }) ∧
    (t.fault = false → t.faultCode = s.faultCode) ∧
    (t.fault = true ∧ t.faultCode = 1#3 ↔ i = .reserved000 ∨ i = .reserved110 ∨ i = .reserved111) ∧
    (t.fault = true ∧ t.faultCode = 2#3 ↔ s.phase = .unconfigured ∧ ((∃ px, i = .pixel px) ∨ i = .finalize)) ∧
    (t.fault = true ∧ t.faultCode = 3#3 ↔ s.phase = .finalized ∧ ∃ px, i = .pixel px) ∧
    (t.fault = true ∧ t.faultCode = 4#3 ↔ ∃ w h c, i = .header w h c ∧ c ≠ 3#8 ∧ c ≠ 4#8) ∧
    (t.fault = true →
      t.faultCode = 1#3 ∨ t.faultCode = 2#3 ∨ t.faultCode = 3#3 ∨ t.faultCode = 4#3)

/-! ## What the output says -/

/-- The reference decoder (42_formatter.md R190) stays in step with the encoder: set to the encoder's `prev` and cache,
it reads the bytes of one PIXEL as the pixels those bytes stand for (the flushed run as copies of the anchor, then the
pixel itself) and ends with the encoder's new `prev` and cache. -/
def Obligations.DecoderFollowsPixel : Prop :=
  ∀ (px : Pixel) (s : State), s.phase = .active → s.run.toNat ≤ 61 → s.outq = [] →
    ∃ t out, exec (.pixel px) s = .next t ∧ refDecodeBytes t.outq s.asDecoder = some (out, t.asDecoder) ∧
      (near px s.prev s.thr = true → s.run.toNat ≠ 61 → out = []) ∧
      (near px s.prev s.thr = true → s.run.toNat = 61 → out = List.replicate 62 s.prev) ∧
      (near px s.prev s.thr = false → out = List.replicate s.run.toNat s.prev ++ [px])

/-- 41_encode_pixel.md R149: a session of any pixels at any threshold, from any state, decodes to as many pixels, each
within the threshold of its original in r, g and b and equal in alpha. -/
def Obligations.SessionDecodesWithinThreshold : Prop :=
  ∀ (x : Byte) (pixels : List Pixel) (s : State), s.fault = false → s.outq = [] →
    ∃ u bytes out d, transactAll (sessionCommands x pixels) s = .next u ∧ u.sink = s.sink ++ bytes ∧
      refDecodeBytes bytes refStart = some (out, d) ∧ WithinThreshold x pixels out

/-- 41_encode_pixel.md R147: at threshold 0 a pixel is near exactly when it equals `prev`, and the output of a session
decodes back to its input. -/
def Obligations.ThresholdZeroIsLossless : Prop :=
  (∀ px prev : Pixel, near px prev 0#8 = true ↔ px = prev) ∧
  ∀ (pixels : List Pixel) (s : State), s.fault = false → s.outq = [] →
    ∃ u bytes d, transactAll (sessionCommands 0#8 pixels) s = .next u ∧ u.sink = s.sink ++ bytes ∧
      refDecodeBytes bytes refStart = some (pixels, d)

/-- The framing property of 43_framing.md R204, with R205's length: whatever the pixels, an IMAGE begins with the
header and ends with the terminator. -/
def Obligations.ImageIsFramed : Prop :=
  ∀ (w h : Dim) (c x : Byte) (pixels : List Pixel) (s : State), c = 3#8 ∨ c = 4#8 → s.fault = false → s.outq = [] →
    ∃ u body, transactAll (imageCommands w h c x pixels) s = .next u ∧
      u.sink = s.sink ++ (headerBytes w h c ++ body ++ footerBytes) ∧
      u.sink.length = s.sink.length + (14 + body.length + 8) ∧ u.phase = .finalized ∧ u.fault = false
end

