-- ==== Sys2Proof/Laws/Decode.lean ====
section
/-! SUPPORT. What the decoder can answer, once per shape, and the fields of an encoded command word. -/

namespace Sys2Proof

/-- Every command word decodes, and to one of the eight commands and reserved codes. -/
theorem decodeCommand_cases (w : CommandWord) :
    decodeCommand w = .reserved000 ∨ (∃ t, decodeCommand w = .init t) ∨ (∃ px, decodeCommand w = .pixel px)
      ∨ decodeCommand w = .finalize ∨ (∃ x h c, decodeCommand w = .header x h c) ∨ decodeCommand w = .footer
      ∨ decodeCommand w = .reserved110 ∨ decodeCommand w = .reserved111 := by
  unfold decodeCommand
  split <;> simp

/-- What a record decode answers: one of the six records, with its operands read from the layout, and the bytes that
follow it. -/
theorem decodeRecord_cases {bytes rest : List Byte} {i : Instr} (h : decodeRecord bytes = .ok (i, rest)) :
    (∃ r g b, bytes = 0xFE#8 :: r :: g :: b :: rest ∧ i = .rgb r g b) ∨
    (∃ r g b a, bytes = 0xFF#8 :: r :: g :: b :: a :: rest ∧ i = .rgba r g b a) ∨
    (∃ b0, bytes = b0 :: rest ∧ b0 ≠ 0xFE#8 ∧ b0 ≠ 0xFF#8 ∧
      (((b0.extractLsb' 6 2).toNat = 0 ∧ i = .index (b0.extractLsb' 0 6)) ∨
       ((b0.extractLsb' 6 2).toNat = 1 ∧ i = .diff (unbiasField 2 (b0.extractLsb' 4 2))
          (unbiasField 2 (b0.extractLsb' 2 2)) (unbiasField 2 (b0.extractLsb' 0 2))) ∨
       ((b0.extractLsb' 6 2).toNat = 3 ∧ i = .run ((b0.extractLsb' 0 6).toNat + 1)))) ∨
    (∃ b0 b1, bytes = b0 :: b1 :: rest ∧ b0 ≠ 0xFE#8 ∧ b0 ≠ 0xFF#8 ∧ (b0.extractLsb' 6 2).toNat = 2 ∧
      i = .luma (unbiasField 32 (b0.extractLsb' 0 6)) (unbiasField 8 (b1.extractLsb' 4 4))
        (unbiasField 8 (b1.extractLsb' 0 4))) := by
  match bytes with
  | [] => simp [decodeRecord] at h
  | b0 :: tl =>
    by_cases hFE : b0 = 0xFE#8
    · subst hFE
      simp only [decodeRecord, if_true] at h
      split at h
      · simp only [Except.ok.injEq, Prod.mk.injEq] at h
        obtain ⟨rfl, rfl⟩ := h
        exact .inl ⟨_, _, _, rfl, rfl⟩
      · simp at h
    · by_cases hFF : b0 = 0xFF#8
      · subst hFF
        simp only [decodeRecord, if_neg hFE, if_true] at h
        split at h
        · simp only [Except.ok.injEq, Prod.mk.injEq] at h
          obtain ⟨rfl, rfl⟩ := h
          exact .inr (.inl ⟨_, _, _, _, rfl, rfl⟩)
        · simp at h
      · simp only [decodeRecord, if_neg hFE, if_neg hFF] at h
        split at h
        · rename_i ht
          simp only [Except.ok.injEq, Prod.mk.injEq] at h
          obtain ⟨rfl, rfl⟩ := h
          exact .inr (.inr (.inl ⟨b0, rfl, hFE, hFF, .inl ⟨ht, rfl⟩⟩))
        · rename_i ht
          simp only [Except.ok.injEq, Prod.mk.injEq] at h
          obtain ⟨rfl, rfl⟩ := h
          exact .inr (.inr (.inl ⟨b0, rfl, hFE, hFF, .inr (.inl ⟨ht, rfl⟩)⟩))
        · rename_i ht
          split at h
          · simp only [Except.ok.injEq, Prod.mk.injEq] at h
            obtain ⟨rfl, rfl⟩ := h
            exact .inr (.inr (.inr ⟨b0, _, rfl, hFE, hFF, ht, rfl⟩))
          · simp at h
        · rename_i h0 h1 h2
          simp only [Except.ok.injEq, Prod.mk.injEq] at h
          obtain ⟨rfl, rfl⟩ := h
          have hlt : (b0.extractLsb' 6 2).toNat < 4 := (b0.extractLsb' 6 2).isLt
          have ht : (b0.extractLsb' 6 2).toNat = 3 := by
            rcases Nat.lt_or_ge (b0.extractLsb' 6 2).toNat 3 with hl | hl
            · interval_cases hv : (b0.extractLsb' 6 2).toNat
              · exact absurd rfl h0
              · exact absurd rfl h1
              · exact absurd rfl h2
            · exact Nat.le_antisymm (Nat.le_of_lt_succ hlt) hl
          exact .inr (.inr (.inl ⟨b0, rfl, hFE, hFF, .inr (.inr ⟨ht, rfl⟩)⟩))

/-- The `op` field of an assembled command word. -/
@[simp] theorem commandOp_commandWord (op : BitVec 3) (data : BitVec 72) : commandOp (commandWord op data) = op :=
  BitVec.extractLsb'_append_eq_left

/-- The `data` field of an assembled command word. -/
@[simp] theorem commandData_commandWord (op : BitVec 3) (data : BitVec 72) :
    (commandWord op data).extractLsb' 0 72 = data :=
  BitVec.extractLsb'_append_eq_right

/-- A stored field of `n` bits gives its value back where the value lies in the field's range
(30_encoding.md R98). -/
theorem unbiasField_biasField (n : Nat) (bias v : Int) (h0 : 0 ≤ v + bias) (h1 : v + bias < 2 ^ n) :
    unbiasField bias (biasField n bias v) = v := by
  unfold unbiasField biasField
  rw [BitVec.toNat_ofInt, Int.toNat_of_nonneg (Int.emod_nonneg _ (by positivity)),
    Int.emod_eq_of_lt h0 (by exact_mod_cast h1)]
  omega

end Sys2Proof
end

