-- ==== Sys2Proof/Laws/State.lean ====
section
/-! SUPPORT. One lemma per field per update of the state, each true by rfl, and what a cache access reads after an
update, so that no later proof unfolds a record update. -/

namespace Sys2Proof.Machine

variable (s : State)

/-! ### setPrev -/

@[simp] theorem State.setPrev_prev (px : Pixel) : (s.setPrev px).prev = px := rfl
@[simp] theorem State.setPrev_run (px : Pixel) : (s.setPrev px).run = s.run := rfl
@[simp] theorem State.setPrev_cache (px : Pixel) : (s.setPrev px).cache = s.cache := rfl
@[simp] theorem State.setPrev_thr (px : Pixel) : (s.setPrev px).thr = s.thr := rfl
@[simp] theorem State.setPrev_phase (px : Pixel) : (s.setPrev px).phase = s.phase := rfl
@[simp] theorem State.setPrev_fault (px : Pixel) : (s.setPrev px).fault = s.fault := rfl
@[simp] theorem State.setPrev_faultCode (px : Pixel) : (s.setPrev px).faultCode = s.faultCode := rfl
@[simp] theorem State.setPrev_outq (px : Pixel) : (s.setPrev px).outq = s.outq := rfl
@[simp] theorem State.setPrev_sink (px : Pixel) : (s.setPrev px).sink = s.sink := rfl
@[simp] theorem State.setPrev_inputs (px : Pixel) : (s.setPrev px).inputs = s.inputs := rfl
@[simp] theorem State.setPrev_held (px : Pixel) : (s.setPrev px).held = s.held := rfl
@[simp] theorem State.setPrev_formatterIn (px : Pixel) : (s.setPrev px).formatterIn = s.formatterIn := rfl
@[simp] theorem State.setPrev_freeIdx (px : Pixel) : (s.setPrev px).freeIdx = s.freeIdx := rfl
@[simp] theorem State.setPrev_cacheRead (px : Pixel) (j : Slot) :
    (s.setPrev px).cacheRead j = s.cacheRead j := rfl

/-! ### setRun -/

@[simp] theorem State.setRun_prev (n : BitVec 6) : (s.setRun n).prev = s.prev := rfl
@[simp] theorem State.setRun_run (n : BitVec 6) : (s.setRun n).run = n := rfl
@[simp] theorem State.setRun_cache (n : BitVec 6) : (s.setRun n).cache = s.cache := rfl
@[simp] theorem State.setRun_thr (n : BitVec 6) : (s.setRun n).thr = s.thr := rfl
@[simp] theorem State.setRun_phase (n : BitVec 6) : (s.setRun n).phase = s.phase := rfl
@[simp] theorem State.setRun_fault (n : BitVec 6) : (s.setRun n).fault = s.fault := rfl
@[simp] theorem State.setRun_faultCode (n : BitVec 6) : (s.setRun n).faultCode = s.faultCode := rfl
@[simp] theorem State.setRun_outq (n : BitVec 6) : (s.setRun n).outq = s.outq := rfl
@[simp] theorem State.setRun_sink (n : BitVec 6) : (s.setRun n).sink = s.sink := rfl
@[simp] theorem State.setRun_inputs (n : BitVec 6) : (s.setRun n).inputs = s.inputs := rfl
@[simp] theorem State.setRun_held (n : BitVec 6) : (s.setRun n).held = s.held := rfl
@[simp] theorem State.setRun_formatterIn (n : BitVec 6) : (s.setRun n).formatterIn = s.formatterIn := rfl
@[simp] theorem State.setRun_freeIdx (n : BitVec 6) : (s.setRun n).freeIdx = s.freeIdx := rfl
@[simp] theorem State.setRun_cacheRead (n : BitVec 6) (j : Slot) :
    (s.setRun n).cacheRead j = s.cacheRead j := rfl

/-! ### setThr -/

@[simp] theorem State.setThr_prev (t : Byte) : (s.setThr t).prev = s.prev := rfl
@[simp] theorem State.setThr_run (t : Byte) : (s.setThr t).run = s.run := rfl
@[simp] theorem State.setThr_cache (t : Byte) : (s.setThr t).cache = s.cache := rfl
@[simp] theorem State.setThr_thr (t : Byte) : (s.setThr t).thr = t := rfl
@[simp] theorem State.setThr_phase (t : Byte) : (s.setThr t).phase = s.phase := rfl
@[simp] theorem State.setThr_fault (t : Byte) : (s.setThr t).fault = s.fault := rfl
@[simp] theorem State.setThr_faultCode (t : Byte) : (s.setThr t).faultCode = s.faultCode := rfl
@[simp] theorem State.setThr_outq (t : Byte) : (s.setThr t).outq = s.outq := rfl
@[simp] theorem State.setThr_sink (t : Byte) : (s.setThr t).sink = s.sink := rfl
@[simp] theorem State.setThr_inputs (t : Byte) : (s.setThr t).inputs = s.inputs := rfl
@[simp] theorem State.setThr_held (t : Byte) : (s.setThr t).held = s.held := rfl
@[simp] theorem State.setThr_formatterIn (t : Byte) : (s.setThr t).formatterIn = s.formatterIn := rfl
@[simp] theorem State.setThr_freeIdx (t : Byte) : (s.setThr t).freeIdx = s.freeIdx := rfl
@[simp] theorem State.setThr_cacheRead (t : Byte) (j : Slot) :
    (s.setThr t).cacheRead j = s.cacheRead j := rfl

/-! ### setPhase -/

@[simp] theorem State.setPhase_prev (p : Phase) : (s.setPhase p).prev = s.prev := rfl
@[simp] theorem State.setPhase_run (p : Phase) : (s.setPhase p).run = s.run := rfl
@[simp] theorem State.setPhase_cache (p : Phase) : (s.setPhase p).cache = s.cache := rfl
@[simp] theorem State.setPhase_thr (p : Phase) : (s.setPhase p).thr = s.thr := rfl
@[simp] theorem State.setPhase_phase (p : Phase) : (s.setPhase p).phase = p := rfl
@[simp] theorem State.setPhase_fault (p : Phase) : (s.setPhase p).fault = s.fault := rfl
@[simp] theorem State.setPhase_faultCode (p : Phase) : (s.setPhase p).faultCode = s.faultCode := rfl
@[simp] theorem State.setPhase_outq (p : Phase) : (s.setPhase p).outq = s.outq := rfl
@[simp] theorem State.setPhase_sink (p : Phase) : (s.setPhase p).sink = s.sink := rfl
@[simp] theorem State.setPhase_inputs (p : Phase) : (s.setPhase p).inputs = s.inputs := rfl
@[simp] theorem State.setPhase_held (p : Phase) : (s.setPhase p).held = s.held := rfl
@[simp] theorem State.setPhase_formatterIn (p : Phase) : (s.setPhase p).formatterIn = s.formatterIn := rfl
@[simp] theorem State.setPhase_freeIdx (p : Phase) : (s.setPhase p).freeIdx = s.freeIdx := rfl
@[simp] theorem State.setPhase_cacheRead (p : Phase) (j : Slot) :
    (s.setPhase p).cacheRead j = s.cacheRead j := rfl

/-! ### cacheWrite -/

@[simp] theorem State.cacheWrite_prev (i : Slot) (px : Pixel) : (s.cacheWrite i px).prev = s.prev := rfl
@[simp] theorem State.cacheWrite_run (i : Slot) (px : Pixel) : (s.cacheWrite i px).run = s.run := rfl
@[simp] theorem State.cacheWrite_cache (i : Slot) (px : Pixel) :
    (s.cacheWrite i px).cache = s.cache.set i.toNat px i.isLt := rfl
@[simp] theorem State.cacheWrite_thr (i : Slot) (px : Pixel) : (s.cacheWrite i px).thr = s.thr := rfl
@[simp] theorem State.cacheWrite_phase (i : Slot) (px : Pixel) : (s.cacheWrite i px).phase = s.phase := rfl
@[simp] theorem State.cacheWrite_fault (i : Slot) (px : Pixel) : (s.cacheWrite i px).fault = s.fault := rfl
@[simp] theorem State.cacheWrite_faultCode (i : Slot) (px : Pixel) :
    (s.cacheWrite i px).faultCode = s.faultCode := rfl
@[simp] theorem State.cacheWrite_outq (i : Slot) (px : Pixel) : (s.cacheWrite i px).outq = s.outq := rfl
@[simp] theorem State.cacheWrite_sink (i : Slot) (px : Pixel) : (s.cacheWrite i px).sink = s.sink := rfl
@[simp] theorem State.cacheWrite_inputs (i : Slot) (px : Pixel) : (s.cacheWrite i px).inputs = s.inputs := rfl
@[simp] theorem State.cacheWrite_held (i : Slot) (px : Pixel) : (s.cacheWrite i px).held = s.held := rfl
@[simp] theorem State.cacheWrite_formatterIn (i : Slot) (px : Pixel) :
    (s.cacheWrite i px).formatterIn = s.formatterIn := rfl
@[simp] theorem State.cacheWrite_freeIdx (i : Slot) (px : Pixel) : (s.cacheWrite i px).freeIdx = s.freeIdx := rfl

/-! ### cacheClear -/

@[simp] theorem State.cacheClear_prev : s.cacheClear.prev = s.prev := rfl
@[simp] theorem State.cacheClear_run : s.cacheClear.run = s.run := rfl
@[simp] theorem State.cacheClear_cache : s.cacheClear.cache = Vector.replicate 64 zeroPixel := rfl
@[simp] theorem State.cacheClear_thr : s.cacheClear.thr = s.thr := rfl
@[simp] theorem State.cacheClear_phase : s.cacheClear.phase = s.phase := rfl
@[simp] theorem State.cacheClear_fault : s.cacheClear.fault = s.fault := rfl
@[simp] theorem State.cacheClear_faultCode : s.cacheClear.faultCode = s.faultCode := rfl
@[simp] theorem State.cacheClear_outq : s.cacheClear.outq = s.outq := rfl
@[simp] theorem State.cacheClear_sink : s.cacheClear.sink = s.sink := rfl
@[simp] theorem State.cacheClear_inputs : s.cacheClear.inputs = s.inputs := rfl
@[simp] theorem State.cacheClear_held : s.cacheClear.held = s.held := rfl
@[simp] theorem State.cacheClear_formatterIn : s.cacheClear.formatterIn = s.formatterIn := rfl
@[simp] theorem State.cacheClear_freeIdx : s.cacheClear.freeIdx = s.freeIdx := rfl

/-! ### emit -/

@[simp] theorem State.emit_prev (bytes : List Byte) : (s.emit bytes).prev = s.prev := rfl
@[simp] theorem State.emit_run (bytes : List Byte) : (s.emit bytes).run = s.run := rfl
@[simp] theorem State.emit_cache (bytes : List Byte) : (s.emit bytes).cache = s.cache := rfl
@[simp] theorem State.emit_thr (bytes : List Byte) : (s.emit bytes).thr = s.thr := rfl
@[simp] theorem State.emit_phase (bytes : List Byte) : (s.emit bytes).phase = s.phase := rfl
@[simp] theorem State.emit_fault (bytes : List Byte) : (s.emit bytes).fault = s.fault := rfl
@[simp] theorem State.emit_faultCode (bytes : List Byte) : (s.emit bytes).faultCode = s.faultCode := rfl
@[simp] theorem State.emit_outq (bytes : List Byte) : (s.emit bytes).outq = s.outq ++ bytes := rfl
@[simp] theorem State.emit_sink (bytes : List Byte) : (s.emit bytes).sink = s.sink := rfl
@[simp] theorem State.emit_inputs (bytes : List Byte) : (s.emit bytes).inputs = s.inputs := rfl
@[simp] theorem State.emit_held (bytes : List Byte) : (s.emit bytes).held = s.held := rfl
@[simp] theorem State.emit_formatterIn (bytes : List Byte) : (s.emit bytes).formatterIn = s.formatterIn := rfl
@[simp] theorem State.emit_freeIdx (bytes : List Byte) : (s.emit bytes).freeIdx = s.freeIdx := rfl
@[simp] theorem State.emit_cacheRead (bytes : List Byte) (j : Slot) :
    (s.emit bytes).cacheRead j = s.cacheRead j := rfl

/-! ### raiseFault -/

@[simp] theorem State.raiseFault_prev (c : FaultCause) : (s.raiseFault c).prev = s.prev := rfl
@[simp] theorem State.raiseFault_run (c : FaultCause) : (s.raiseFault c).run = s.run := rfl
@[simp] theorem State.raiseFault_cache (c : FaultCause) : (s.raiseFault c).cache = s.cache := rfl
@[simp] theorem State.raiseFault_thr (c : FaultCause) : (s.raiseFault c).thr = s.thr := rfl
@[simp] theorem State.raiseFault_phase (c : FaultCause) : (s.raiseFault c).phase = s.phase := rfl
@[simp] theorem State.raiseFault_fault (c : FaultCause) : (s.raiseFault c).fault = true := rfl
@[simp] theorem State.raiseFault_faultCode (c : FaultCause) : (s.raiseFault c).faultCode = faultCauseCode c := rfl
@[simp] theorem State.raiseFault_outq (c : FaultCause) : (s.raiseFault c).outq = s.outq := rfl
@[simp] theorem State.raiseFault_sink (c : FaultCause) : (s.raiseFault c).sink = s.sink := rfl
@[simp] theorem State.raiseFault_inputs (c : FaultCause) : (s.raiseFault c).inputs = s.inputs := rfl
@[simp] theorem State.raiseFault_held (c : FaultCause) : (s.raiseFault c).held = s.held := rfl
@[simp] theorem State.raiseFault_formatterIn (c : FaultCause) : (s.raiseFault c).formatterIn = s.formatterIn := rfl
@[simp] theorem State.raiseFault_freeIdx (c : FaultCause) : (s.raiseFault c).freeIdx = s.freeIdx := rfl
@[simp] theorem State.raiseFault_cacheRead (c : FaultCause) (j : Slot) :
    (s.raiseFault c).cacheRead j = s.cacheRead j := rfl

/-! ### resetBlock -/

@[simp] theorem State.resetBlock_prev : s.resetBlock.prev = Config.freePrev s.freeIdx := rfl
@[simp] theorem State.resetBlock_run : s.resetBlock.run = Config.freeRun s.freeIdx := rfl
@[simp] theorem State.resetBlock_cache : s.resetBlock.cache = Vector.ofFn (Config.freeSlot s.freeIdx) := rfl
@[simp] theorem State.resetBlock_thr : s.resetBlock.thr = Config.freeThr s.freeIdx := rfl
@[simp] theorem State.resetBlock_phase : s.resetBlock.phase = .unconfigured := rfl
@[simp] theorem State.resetBlock_fault : s.resetBlock.fault = false := rfl
@[simp] theorem State.resetBlock_faultCode : s.resetBlock.faultCode = 0#3 := rfl
@[simp] theorem State.resetBlock_outq : s.resetBlock.outq = [] := rfl
@[simp] theorem State.resetBlock_sink : s.resetBlock.sink = s.sink := rfl
@[simp] theorem State.resetBlock_inputs : s.resetBlock.inputs = s.inputs := rfl
@[simp] theorem State.resetBlock_held : s.resetBlock.held = s.held := rfl
@[simp] theorem State.resetBlock_formatterIn : s.resetBlock.formatterIn = s.formatterIn := rfl
@[simp] theorem State.resetBlock_freeIdx : s.resetBlock.freeIdx = s.freeIdx + 1 := rfl

/-! ### advance -/

@[simp] theorem State.advance_prev : s.advance.prev = s.prev := rfl
@[simp] theorem State.advance_run : s.advance.run = s.run := rfl
@[simp] theorem State.advance_cache : s.advance.cache = s.cache := rfl
@[simp] theorem State.advance_thr : s.advance.thr = s.thr := rfl
@[simp] theorem State.advance_phase : s.advance.phase = s.phase := rfl
@[simp] theorem State.advance_fault : s.advance.fault = s.fault := rfl
@[simp] theorem State.advance_faultCode : s.advance.faultCode = s.faultCode := rfl
@[simp] theorem State.advance_outq : s.advance.outq = s.outq := rfl
@[simp] theorem State.advance_sink : s.advance.sink = s.sink := rfl
@[simp] theorem State.advance_inputs : s.advance.inputs = s.inputs.tail := rfl
@[simp] theorem State.advance_held : s.advance.held = s.held := rfl
@[simp] theorem State.advance_formatterIn : s.advance.formatterIn = s.formatterIn := rfl
@[simp] theorem State.advance_freeIdx : s.advance.freeIdx = s.freeIdx := rfl
@[simp] theorem State.advance_cacheRead (j : Slot) :
    s.advance.cacheRead j = s.cacheRead j := rfl

/-! ### setHeld -/

@[simp] theorem State.setHeld_prev (cmd : Option CommandWord) : (s.setHeld cmd).prev = s.prev := rfl
@[simp] theorem State.setHeld_run (cmd : Option CommandWord) : (s.setHeld cmd).run = s.run := rfl
@[simp] theorem State.setHeld_cache (cmd : Option CommandWord) : (s.setHeld cmd).cache = s.cache := rfl
@[simp] theorem State.setHeld_thr (cmd : Option CommandWord) : (s.setHeld cmd).thr = s.thr := rfl
@[simp] theorem State.setHeld_phase (cmd : Option CommandWord) : (s.setHeld cmd).phase = s.phase := rfl
@[simp] theorem State.setHeld_fault (cmd : Option CommandWord) : (s.setHeld cmd).fault = s.fault := rfl
@[simp] theorem State.setHeld_faultCode (cmd : Option CommandWord) : (s.setHeld cmd).faultCode = s.faultCode := rfl
@[simp] theorem State.setHeld_outq (cmd : Option CommandWord) : (s.setHeld cmd).outq = s.outq := rfl
@[simp] theorem State.setHeld_sink (cmd : Option CommandWord) : (s.setHeld cmd).sink = s.sink := rfl
@[simp] theorem State.setHeld_inputs (cmd : Option CommandWord) : (s.setHeld cmd).inputs = s.inputs := rfl
@[simp] theorem State.setHeld_held (cmd : Option CommandWord) : (s.setHeld cmd).held = cmd := rfl
@[simp] theorem State.setHeld_formatterIn (cmd : Option CommandWord) :
    (s.setHeld cmd).formatterIn = s.formatterIn := rfl
@[simp] theorem State.setHeld_freeIdx (cmd : Option CommandWord) : (s.setHeld cmd).freeIdx = s.freeIdx := rfl
@[simp] theorem State.setHeld_cacheRead (cmd : Option CommandWord) (j : Slot) :
    (s.setHeld cmd).cacheRead j = s.cacheRead j := rfl

/-! ### clearFormatterIn -/

@[simp] theorem State.clearFormatterIn_prev : s.clearFormatterIn.prev = s.prev := rfl
@[simp] theorem State.clearFormatterIn_run : s.clearFormatterIn.run = s.run := rfl
@[simp] theorem State.clearFormatterIn_cache : s.clearFormatterIn.cache = s.cache := rfl
@[simp] theorem State.clearFormatterIn_thr : s.clearFormatterIn.thr = s.thr := rfl
@[simp] theorem State.clearFormatterIn_phase : s.clearFormatterIn.phase = s.phase := rfl
@[simp] theorem State.clearFormatterIn_fault : s.clearFormatterIn.fault = s.fault := rfl
@[simp] theorem State.clearFormatterIn_faultCode : s.clearFormatterIn.faultCode = s.faultCode := rfl
@[simp] theorem State.clearFormatterIn_outq : s.clearFormatterIn.outq = s.outq := rfl
@[simp] theorem State.clearFormatterIn_sink : s.clearFormatterIn.sink = s.sink := rfl
@[simp] theorem State.clearFormatterIn_inputs : s.clearFormatterIn.inputs = s.inputs := rfl
@[simp] theorem State.clearFormatterIn_held : s.clearFormatterIn.held = s.held := rfl
@[simp] theorem State.clearFormatterIn_formatterIn : s.clearFormatterIn.formatterIn = none := rfl
@[simp] theorem State.clearFormatterIn_freeIdx : s.clearFormatterIn.freeIdx = s.freeIdx := rfl
@[simp] theorem State.clearFormatterIn_cacheRead (j : Slot) :
    s.clearFormatterIn.cacheRead j = s.cacheRead j := rfl

/-! ### transfer -/

@[simp] theorem State.transfer_prev : s.transfer.prev = s.prev := rfl
@[simp] theorem State.transfer_run : s.transfer.run = s.run := rfl
@[simp] theorem State.transfer_cache : s.transfer.cache = s.cache := rfl
@[simp] theorem State.transfer_thr : s.transfer.thr = s.thr := rfl
@[simp] theorem State.transfer_phase : s.transfer.phase = s.phase := rfl
@[simp] theorem State.transfer_fault : s.transfer.fault = s.fault := rfl
@[simp] theorem State.transfer_faultCode : s.transfer.faultCode = s.faultCode := rfl
@[simp] theorem State.transfer_outq : s.transfer.outq = s.outq.tail := rfl
@[simp] theorem State.transfer_sink : s.transfer.sink = s.sink ++ s.outq.head?.toList := rfl
@[simp] theorem State.transfer_inputs : s.transfer.inputs = s.inputs := rfl
@[simp] theorem State.transfer_held : s.transfer.held = s.held := rfl
@[simp] theorem State.transfer_formatterIn : s.transfer.formatterIn = s.formatterIn := rfl
@[simp] theorem State.transfer_freeIdx : s.transfer.freeIdx = s.freeIdx := rfl
@[simp] theorem State.transfer_cacheRead (j : Slot) :
    s.transfer.cacheRead j = s.cacheRead j := rfl

/-! ### drain -/

@[simp] theorem State.drain_prev : s.drain.prev = s.prev := rfl
@[simp] theorem State.drain_run : s.drain.run = s.run := rfl
@[simp] theorem State.drain_cache : s.drain.cache = s.cache := rfl
@[simp] theorem State.drain_thr : s.drain.thr = s.thr := rfl
@[simp] theorem State.drain_phase : s.drain.phase = s.phase := rfl
@[simp] theorem State.drain_fault : s.drain.fault = s.fault := rfl
@[simp] theorem State.drain_faultCode : s.drain.faultCode = s.faultCode := rfl
@[simp] theorem State.drain_outq : s.drain.outq = [] := rfl
@[simp] theorem State.drain_sink : s.drain.sink = s.sink ++ s.outq := rfl
@[simp] theorem State.drain_inputs : s.drain.inputs = s.inputs := rfl
@[simp] theorem State.drain_held : s.drain.held = s.held := rfl
@[simp] theorem State.drain_formatterIn : s.drain.formatterIn = s.formatterIn := rfl
@[simp] theorem State.drain_freeIdx : s.drain.freeIdx = s.freeIdx := rfl
@[simp] theorem State.drain_cacheRead (j : Slot) :
    s.drain.cacheRead j = s.cacheRead j := rfl

/-! ### Cache accesses -/

/-- A read after a write: the written slot gives the pixel, every other slot what it held (20_memory.md R61). -/
theorem State.cacheRead_cacheWrite (i j : Slot) (px : Pixel) :
    (s.cacheWrite i px).cacheRead j = if i = j then px else s.cacheRead j := by
  simp only [State.cacheRead, State.cacheWrite, Vector.getElem_set, BitVec.toNat_inj]

@[simp] theorem State.cacheRead_cacheWrite_same (i : Slot) (px : Pixel) :
    (s.cacheWrite i px).cacheRead i = px := by
  simp [State.cacheRead_cacheWrite]

theorem State.cacheRead_cacheWrite_ne (i j : Slot) (px : Pixel) (h : i ≠ j) :
    (s.cacheWrite i px).cacheRead j = s.cacheRead j := by
  simp [State.cacheRead_cacheWrite, h]

@[simp] theorem State.cacheRead_cacheClear (j : Slot) : s.cacheClear.cacheRead j = zeroPixel := by
  simp [State.cacheRead, State.cacheClear]

/-- A write of what a slot holds changes nothing. -/
theorem State.cacheWrite_cacheRead (i : Slot) : s.cacheWrite i (s.cacheRead i) = s := by
  simp [State.cacheWrite, State.cacheRead]

/-- Two states with the same cache read the same slots. -/
theorem State.cacheRead_congr {s t : State} (h : s.cache = t.cache) (i : Slot) : s.cacheRead i = t.cacheRead i := by
  simp [State.cacheRead, h]

/-- Emitting nothing changes nothing. -/
@[simp] theorem State.emit_nil : s.emit [] = s := by
  simp [State.emit]

/-- Emitting one byte string and then another is emitting both. -/
@[simp] theorem State.emit_emit (xs ys : List Byte) : (s.emit xs).emit ys = s.emit (xs ++ ys) := by
  simp [State.emit]

end Sys2Proof.Machine
end

