-- ==== Sys2Proof/Laws/Exec.lean ====
section
/-! SUPPORT. What the shared operations of the meanings can do, said once: the flush, the run accumulator, the coding of
a non-near pixel, the selector; and that a meaning neither reads nor writes the pin schedule. -/

namespace Sys2Proof.Machine

variable (s : State) (px : Pixel)

/-! ### The flush -/

/-- With no run pending the flush does nothing; else it emits the RUN byte and zeroes the count. -/
theorem flushRun_cases :
    (s.run = 0#6 ∧ flushRun s = s) ∨
    (s.run ≠ 0#6 ∧ flushRun s = (s.emit (formatRun s.run.toNat)).setRun 0#6) := by
  unfold flushRun
  by_cases h : s.run = 0#6
  · exact .inl ⟨h, if_pos h⟩
  · exact .inr ⟨h, if_neg h⟩

theorem flushRun_of_idle (h : s.run = 0#6) : flushRun s = s := if_pos h

theorem flushRun_of_pending (h : s.run ≠ 0#6) :
    flushRun s = (s.emit (formatRun s.run.toNat)).setRun 0#6 := if_neg h

@[simp] theorem flushRun_run : (flushRun s).run = 0#6 := by
  rcases flushRun_cases s with ⟨h, e⟩ | ⟨-, e⟩
  · rw [e, h]
  · simp [e]

/-- The flush changes `run` and `outq` only. -/
theorem flushRun_frame : flushRun s = { s with run := 0#6, outq := (flushRun s).outq } := by
  rcases flushRun_cases s with ⟨h, e⟩ | ⟨-, e⟩
  · rw [e, ← h]
  · rw [e]; rfl

@[simp] theorem flushRun_prev : (flushRun s).prev = s.prev := by rw [flushRun_frame]
@[simp] theorem flushRun_cache : (flushRun s).cache = s.cache := by rw [flushRun_frame]
@[simp] theorem flushRun_thr : (flushRun s).thr = s.thr := by rw [flushRun_frame]
@[simp] theorem flushRun_phase : (flushRun s).phase = s.phase := by rw [flushRun_frame]
@[simp] theorem flushRun_fault : (flushRun s).fault = s.fault := by rw [flushRun_frame]
@[simp] theorem flushRun_faultCode : (flushRun s).faultCode = s.faultCode := by rw [flushRun_frame]
@[simp] theorem flushRun_sink : (flushRun s).sink = s.sink := by rw [flushRun_frame]
@[simp] theorem flushRun_inputs : (flushRun s).inputs = s.inputs := by rw [flushRun_frame]
@[simp] theorem flushRun_held : (flushRun s).held = s.held := by rw [flushRun_frame]
@[simp] theorem flushRun_formatterIn : (flushRun s).formatterIn = s.formatterIn := by rw [flushRun_frame]
@[simp] theorem flushRun_freeIdx : (flushRun s).freeIdx = s.freeIdx := by rw [flushRun_frame]
@[simp] theorem flushRun_cacheRead (i : Slot) : (flushRun s).cacheRead i = s.cacheRead i :=
  State.cacheRead_congr (flushRun_cache s) i

/-- The bytes a flush puts out: none, or the one RUN byte of the pending length. -/
def flushBytes (run : BitVec 6) : List Byte := if run = 0#6 then [] else formatRun run.toNat

theorem flushRun_outq : (flushRun s).outq = s.outq ++ flushBytes s.run := by
  rcases flushRun_cases s with ⟨h, e⟩ | ⟨h, e⟩ <;> simp [e, flushBytes, h]

theorem flushBytes_length (run : BitVec 6) : (flushBytes run).length ≤ 1 := by
  unfold flushBytes formatRun
  split <;> simp

/-- The byte of a flush reads back as the RUN record of the pending length (42_formatter.md R173). -/
theorem decodeRecord_flushBytes : ∀ run : BitVec 6, run ≠ 0#6 → run.toNat ≤ 61 →
    decodeRecord (flushBytes run) = .ok (.run run.toNat, []) := by decide

/-! ### The run accumulator -/

/-- One more near pixel: the count grows, or reaches the cap and goes back to 0 with the byte of RUN 62. -/
theorem continueRun_cases :
    (s.run.toNat + 1 = 62 ∧ continueRun s = { s with run := 0#6, outq := s.outq ++ formatRun 62 }) ∨
    (s.run.toNat + 1 ≠ 62 ∧ continueRun s = { s with run := BitVec.ofNat 6 (s.run.toNat + 1) }) := by
  unfold continueRun
  by_cases h : s.run.toNat + 1 = 62
  · exact .inl ⟨h, if_pos h⟩
  · exact .inr ⟨h, if_neg h⟩

/-- The byte of RUN 62 (41_encode_pixel.md R138). -/
theorem formatRun_cap : formatRun 62 = [0xFD#8] := by decide

/-! ### Coding a non-near pixel -/

/-- Which slot a choice writes: none on a hit, the pixel's own on a miss. -/
theorem updateCache_cases (c : Choice) :
    (updateCache px c s = s ∧ (c = .continueRun ∨ c = .index)) ∨
    (updateCache px c s = s.cacheWrite (pixelHash px) px ∧ c ≠ .continueRun ∧ c ≠ .index) := by
  cases c <;> simp [updateCache]

/-- A coded pixel changes `prev`, `run`, `outq` and, on a miss, its slot. -/
theorem codePixel_frame (c : Choice) :
    codePixel px c s =
      { s with
        prev := px
        run := 0#6
        cache := (updateCache px c s).cache
        outq := s.outq ++ flushBytes s.run ++ choiceBytes px s.prev c } := by
  unfold codePixel
  rw [flushRun_frame, flushRun_outq]
  cases c <;> rfl

/-- A record that misses the cache is none of "continue" and "index". -/
theorem selectMiss_ne (prev : Pixel) : selectMiss px prev ≠ .continueRun ∧ selectMiss px prev ≠ .index := by
  unfold selectMiss
  split
  · split
    · simp
    · split <;> simp
  · simp

/-- The three ways a PIXEL in phase Active goes (41_encode_pixel.md R135): near, hit, miss. -/
theorem encodePixel_cases :
    (near px s.prev s.thr = true ∧ encodePixel px s = continueRun s) ∨
    (near px s.prev s.thr = false ∧ s.cacheRead (pixelHash px) = px ∧ encodePixel px s = codePixel px .index s) ∨
    (near px s.prev s.thr = false ∧ s.cacheRead (pixelHash px) ≠ px ∧
      encodePixel px s = codePixel px (selectMiss px s.prev) s) := by
  unfold encodePixel select
  by_cases hn : near px s.prev s.thr = true
  · simp [hn]
  · by_cases hc : s.cacheRead (pixelHash px) = px
    · simp [hn, hc]
    · simp only [hn, hc, if_false, Bool.false_eq_true]
      have h := (selectMiss_ne px s.prev).1
      right; right
      refine ⟨by simp, by simpa using hc, ?_⟩
      cases hm : selectMiss px s.prev <;> simp_all

/-- What each choice of the selector says of the pixel (41_encode_pixel.md R135): near for "continue", and unchanged
alpha with its range test for DIFF, and for LUMA with DIFF's test failed. -/
theorem select_spec (prev slot : Pixel) (thr : Byte) :
    (select px prev thr slot = .continueRun ↔ near px prev thr = true) ∧
    (select px prev thr slot = .diff → px.a = prev.a ∧ diffOk px prev = true) ∧
    (select px prev thr slot = .luma → px.a = prev.a ∧ diffOk px prev = false ∧ lumaOk px prev = true) := by
  have hne := (selectMiss_ne px prev).1
  unfold select
  by_cases hn : near px prev thr = true
  · simp [hn]
  · by_cases hc : slot = px
    · simp [hn, hc]
    · simp only [hn, hc, if_false, Bool.false_eq_true, hne, iff_self, true_and]
      unfold selectMiss
      split
      · split
        · simp_all
        · split <;> simp_all
      · simp

/-- The bytes of a record choice: at most five. -/
theorem choiceBytes_length (prev : Pixel) (c : Choice) : (choiceBytes px prev c).length ≤ 5 := by
  cases c <;> simp [choiceBytes, formatIndex, formatDiff, formatLuma, formatRgb, formatRgba]

/-! ### PIXEL and FINALIZE by phase -/

/-- A phase is one of three (10_state.md R38). -/
theorem phase_cases (p : Phase) : p = .unconfigured ∨ p = .active ∨ p = .finalized := by
  cases p <;> simp

theorem execPixel_of_unconfigured (h : s.phase = .unconfigured) :
    execPixel px s = .next (s.raiseFault .notInitialised) := by
  simp [execPixel, h]

theorem execPixel_of_active (h : s.phase = .active) : execPixel px s = .next (encodePixel px s) := by
  simp [execPixel, h]

theorem execPixel_of_finalized (h : s.phase = .finalized) :
    execPixel px s = .next (s.raiseFault .pixelAfterFinalize) := by
  simp [execPixel, h]

theorem execFinalize_of_unconfigured (h : s.phase = .unconfigured) :
    execFinalize s = .next (s.raiseFault .notInitialised) := by
  simp [execFinalize, h]

theorem execFinalize_of_active (h : s.phase = .active) :
    execFinalize s = .next ((flushRun s).setPhase .finalized) := by
  simp [execFinalize, h]

theorem execFinalize_of_finalized (h : s.phase = .finalized) : execFinalize s = .next s := by
  cases s
  simp_all [execFinalize, State.setPhase]

/-- Where PIXEL in phase Active ends, field by field: near at the cap, near below it, hit, miss. -/
theorem encodePixel_result :
    (near px s.prev s.thr = true ∧ s.run.toNat + 1 = 62 ∧
      encodePixel px s = { s with run := 0#6, outq := s.outq ++ formatRun 62 }) ∨
    (near px s.prev s.thr = true ∧ s.run.toNat + 1 ≠ 62 ∧
      encodePixel px s = { s with run := BitVec.ofNat 6 (s.run.toNat + 1) }) ∨
    (near px s.prev s.thr = false ∧ s.cacheRead (pixelHash px) = px ∧
      encodePixel px s =
        { s with prev := px, run := 0#6, outq := s.outq ++ flushBytes s.run ++ formatIndex (pixelHash px) }) ∨
    (near px s.prev s.thr = false ∧ s.cacheRead (pixelHash px) ≠ px ∧
      encodePixel px s =
        { s with
          prev := px
          run := 0#6
          cache := (s.cacheWrite (pixelHash px) px).cache
          outq := s.outq ++ flushBytes s.run ++ choiceBytes px s.prev (selectMiss px s.prev) }) := by
  obtain ⟨hn, e⟩ | ⟨hn, hc, e⟩ | ⟨hn, hc, e⟩ := encodePixel_cases s px
  · obtain ⟨h, e'⟩ | ⟨h, e'⟩ := continueRun_cases s
    · exact .inl ⟨hn, h, by rw [e, e']⟩
    · exact .inr (.inl ⟨hn, h, by rw [e, e']⟩)
  · exact .inr (.inr (.inl ⟨hn, hc, by rw [e, codePixel_frame]; rfl⟩))
  · refine .inr (.inr (.inr ⟨hn, hc, ?_⟩))
    rw [e, codePixel_frame]
    obtain ⟨-, h | h⟩ | ⟨h, -⟩ := updateCache_cases s px (selectMiss px s.prev)
    · exact absurd h (selectMiss_ne px s.prev).1
    · exact absurd h (selectMiss_ne px s.prev).2
    · rw [h]

/-! ### What a meaning can do -/

/-- The inversion of `exec`: the instruction, the phase it ran in, and the state it left. -/
theorem exec_cases {i : Instr} {s t : State} (h : exec i s = .next t) :
    (∃ x, i = .init x ∧ t = ((((s.setPrev initialPixel).setRun 0#6).cacheClear).setThr x).setPhase .active) ∨
    (∃ px, i = .pixel px ∧ s.phase = .active ∧ t = encodePixel px s) ∨
    (∃ px, i = .pixel px ∧ s.phase = .unconfigured ∧ t = s.raiseFault .notInitialised) ∨
    (∃ px, i = .pixel px ∧ s.phase = .finalized ∧ t = s.raiseFault .pixelAfterFinalize) ∨
    (i = .finalize ∧ s.phase = .unconfigured ∧ t = s.raiseFault .notInitialised) ∨
    (i = .finalize ∧ s.phase = .active ∧ t = (flushRun s).setPhase .finalized) ∨
    (i = .finalize ∧ s.phase = .finalized ∧ t = s) ∨
    (∃ w hh c, i = .header w hh c ∧ c ≠ 3#8 ∧ c ≠ 4#8 ∧ t = s.raiseFault .badChannelCount) ∨
    ((i = .reserved000 ∨ i = .reserved110 ∨ i = .reserved111) ∧ t = s.raiseFault .reservedCommand) ∨
    (∃ bytes, t = s.emit bytes ∧
      ((∃ w hh c, i = .header w hh c ∧ (c = 3#8 ∨ c = 4#8) ∧ bytes = headerBytes w hh c) ∨
       (i = .footer ∧ bytes = footerBytes) ∨
       (∃ x, i = .index x ∧ bytes = formatIndex x) ∨
       (∃ x y z, i = .diff x y z ∧ bytes = formatDiff x y z) ∨
       (∃ x y z, i = .luma x y z ∧ bytes = formatLuma x y z) ∨
       (∃ n, i = .run n ∧ bytes = formatRun n) ∨
       (∃ r g b, i = .rgb r g b ∧ bytes = formatRgb r g b) ∨
       (∃ r g b a, i = .rgba r g b a ∧ bytes = formatRgba r g b a))) := by
  cases i with
  | init x => simp only [exec, execInit] at h; injection h with h; subst h; simp
  | pixel px =>
    simp only [exec] at h
    rcases phase_cases s.phase with hp | hp | hp
    · rw [execPixel_of_unconfigured s px hp] at h; injection h with h; subst h; simp [hp]
    · rw [execPixel_of_active s px hp] at h; injection h with h; subst h; simp [hp]
    · rw [execPixel_of_finalized s px hp] at h; injection h with h; subst h; simp [hp]
  | finalize =>
    simp only [exec] at h
    rcases phase_cases s.phase with hp | hp | hp
    · rw [execFinalize_of_unconfigured s hp] at h; injection h with h; subst h; simp [hp]
    · rw [execFinalize_of_active s hp] at h; injection h with h; subst h; simp [hp]
    · rw [execFinalize_of_finalized s hp] at h; injection h with h; subst h; simp [hp]
  | header w hh c =>
    simp only [exec, execHeader] at h
    split at h <;> rename_i hc <;> injection h with h <;> subst h
    · simp [hc]
    · simp [not_or.1 hc]
  | footer => simp only [exec, execFooter] at h; injection h with h; subst h; simp
  | reserved000 => simp only [exec, execReserved000] at h; injection h with h; subst h; simp
  | reserved110 => simp only [exec, execReserved110] at h; injection h with h; subst h; simp
  | reserved111 => simp only [exec, execReserved111] at h; injection h with h; subst h; simp
  | index _ => simp only [exec, execIndex] at h; injection h with h; subst h; simp
  | diff _ _ _ => simp only [exec, execDiff] at h; injection h with h; subst h; simp
  | luma _ _ _ => simp only [exec, execLuma] at h; injection h with h; subst h; simp
  | run _ => simp only [exec, execRun] at h; injection h with h; subst h; simp
  | rgb _ _ _ => simp only [exec, execRgb] at h; injection h with h; subst h; simp
  | rgba _ _ _ _ => simp only [exec, execRgba] at h; injection h with h; subst h; simp

/-! ### Meanings and the pin schedule -/

theorem encodePixel_withInputs (later : List Pins) :
    encodePixel px { s with inputs := later } = { encodePixel px s with inputs := later } := by
  unfold encodePixel
  change (match select px s.prev s.thr (s.cacheRead (pixelHash px)) with
    | .continueRun => continueRun { s with inputs := later }
    | c => codePixel px c { s with inputs := later }) = _
  have hs : ∀ c, codePixel px c { s with inputs := later } = { codePixel px c s with inputs := later } := by
    intro c
    rw [codePixel_frame, codePixel_frame]
    cases c <;> rfl
  cases select px s.prev s.thr (s.cacheRead (pixelHash px)) with
  | continueRun =>
    simp only [continueRun]
    split <;> rfl
  | index => exact hs _
  | diff => exact hs _
  | luma => exact hs _
  | rgb => exact hs _
  | rgba => exact hs _

/-- A meaning neither reads nor writes the schedule of pins: run with another schedule, it does the same and leaves
that one. -/
theorem exec_withInputs (i : Instr) (later : List Pins) {t : State} (h : exec i s = .next t) :
    exec i { s with inputs := later } = .next { t with inputs := later } := by
  cases i with
  | pixel px =>
    simp only [exec] at h ⊢
    rcases phase_cases s.phase with hp | hp | hp
    · rw [execPixel_of_unconfigured s px hp] at h
      rw [execPixel_of_unconfigured { s with inputs := later } px hp]
      injection h with h; subst h; rfl
    · rw [execPixel_of_active s px hp] at h
      rw [execPixel_of_active { s with inputs := later } px hp, encodePixel_withInputs]
      injection h with h; subst h; rfl
    · rw [execPixel_of_finalized s px hp] at h
      rw [execPixel_of_finalized { s with inputs := later } px hp]
      injection h with h; subst h; rfl
  | finalize =>
    simp only [exec] at h ⊢
    rcases phase_cases s.phase with hp | hp | hp
    · rw [execFinalize_of_unconfigured s hp] at h
      rw [execFinalize_of_unconfigured { s with inputs := later } hp]
      injection h with h; subst h; rfl
    · rw [execFinalize_of_active s hp] at h
      rw [execFinalize_of_active { s with inputs := later } hp]
      injection h with h; subst h
      unfold flushRun
      split <;> rfl
    · rw [execFinalize_of_finalized s hp] at h
      rw [execFinalize_of_finalized { s with inputs := later } hp]
      injection h with h; subst h; rfl
  | header w hh c =>
    simp only [exec, execHeader] at h ⊢
    split at h
    · rename_i hc
      rw [if_pos hc]
      injection h with h; subst h; rfl
    · rename_i hc
      rw [if_neg hc]
      injection h with h; subst h; rfl
  | _ => simp only [exec] at h ⊢; injection h with h; subst h; rfl

end Sys2Proof.Machine
end

