-- ==== Sys2Proof/Laws/PerInstr.lean ====
section
/-! SUPPORT. A statement about every instruction as syntax, proved per constructor: its encoding lies in its row of
spec/opcode_table.json, that is, its bits under the row's mask are the row's match. -/

namespace Sys2Proof.Laws.TableMatch

/-- The encoding of `i` under its row's mask is its row's match (spec/opcode_table.json, "match" and "mask").  The mask
of a command word is its `op` field; that of a record lies in its first byte. -/
def Statement (i : Instr) : Prop :=
  match i, encode i with
  | .init _, .command w => commandOp w = 1#3
  | .pixel _, .command w => commandOp w = 2#3
  | .finalize, .command w => commandOp w = 3#3
  | .header _ _ _, .command w => commandOp w = 4#3
  | .footer, .command w => commandOp w = 5#3
  | .reserved000, .command w => commandOp w = 0#3
  | .reserved110, .command w => commandOp w = 6#3
  | .reserved111, .command w => commandOp w = 7#3
  | .index _, .record [b0] => b0 &&& 0xC0#8 = 0x00#8
  | .diff _ _ _, .record [b0] => b0 &&& 0xC0#8 = 0x40#8
  | .luma _ _ _, .record [b0, _] => b0 &&& 0xC0#8 = 0x80#8
  | .run _, .record [b0] => b0 &&& 0xC0#8 = 0xC0#8
  | .rgb _ _ _, .record [b0, _, _, _] => b0 = 0xFE#8
  | .rgba _ _ _ _, .record [b0, _, _, _, _] => b0 = 0xFF#8
  | _, _ => False

theorem init (t : Byte) : Statement (.init t) := commandOp_commandWord _ _

theorem pixel (px : Pixel) : Statement (.pixel px) := commandOp_commandWord _ _

theorem finalize : Statement .finalize := commandOp_commandWord _ _

theorem header (w h : Dim) (c : Byte) : Statement (.header w h c) := commandOp_commandWord _ _

theorem footer : Statement .footer := commandOp_commandWord _ _

theorem reserved000 : Statement .reserved000 := commandOp_commandWord _ _

theorem reserved110 : Statement .reserved110 := commandOp_commandWord _ _

theorem reserved111 : Statement .reserved111 := commandOp_commandWord _ _

/-- Two tag bits in front of a six-bit field (30_encoding.md R92 to R95). -/
theorem tag_and_mask (tag : BitVec 2) (x : BitVec 6) : (tag ++ x : BitVec 8) &&& 0xC0#8 = tag ++ 0#6 := by
  apply BitVec.eq_of_toNat_eq
  revert tag x
  decide

theorem index (slot : Slot) : Statement (.index slot) := tag_and_mask 0#2 slot

theorem diff (dr dg db : Int) : Statement (.diff dr dg db) := by
  have h : ∀ x y z : BitVec 2, (1#2 ++ x ++ y ++ z : BitVec 8) &&& 0xC0#8 = 0x40#8 := by decide
  exact h _ _ _

theorem luma (dg drg dbg : Int) : Statement (.luma dg drg dbg) := tag_and_mask 2#2 _

theorem run (n : Nat) : Statement (.run n) := tag_and_mask 3#2 _

theorem rgb (r g b : Byte) : Statement (.rgb r g b) := rfl

theorem rgba (r g b a : Byte) : Statement (.rgba r g b a) := rfl

end Sys2Proof.Laws.TableMatch
end

