-- ==== Sys2Proof/Laws/Step.lean ====
section
/-! SUPPORT. What a step can do, said once: the inversion of a clock edge and of the step. -/

namespace Sys2Proof.Machine

variable {s t : State} {p : Pins}

/-- The block is ready exactly with no fault and an empty `outq`. -/
theorem State.ready_iff : s.ready = true ↔ s.fault = false ∧ s.outq = [] := by
  simp [State.ready]

/-- The host breaks its duty exactly where it held an offer that is not on the pins now. -/
theorem offerChanged_iff {held cmd : Option CommandWord} :
    offerChanged held cmd = true ↔ ∃ w, held = some w ∧ cmd ≠ some w := by
  cases held <;> simp [offerChanged]

/-- An edge that answers a next state found the host's offer stable, and did one of four things: reset, an idle ready
edge, an accepted command, or the output handshake of a block that is not ready. -/
theorem clockEdge_cases (h : clockEdge p s = .next t) :
    offerChanged s.held p.cmd = false ∧
    ((p.rst = true ∧ t = (s.setHeld p.cmd).resetBlock) ∨
     (p.rst = false ∧ s.ready = true ∧ p.cmd = none ∧ t = s.setHeld none) ∨
     (p.rst = false ∧ s.ready = true ∧ ∃ w, p.cmd = some w ∧ exec (decodeCommand w) (s.setHeld none) = .next t) ∨
     (p.rst = false ∧ s.ready = false ∧ t = outputEdge p (s.setHeld p.cmd))) := by
  unfold clockEdge at h
  split at h
  · cases h
  · rename_i ho
    refine ⟨by simpa using ho, ?_⟩
    split at h
    · rename_i hr
      injection h with h
      exact .inl ⟨hr, h.symm⟩
    · rename_i hr
      have hr : p.rst = false := by simpa using hr
      split at h
      · rename_i hc
        have hs : s.ready = true := by simpa [cmdReady, hr] using hc
        unfold commandEdge at h
        split at h
        · rename_i hcmd
          injection h with h
          exact .inr (.inl ⟨hr, hs, hcmd, h.symm⟩)
        · rename_i w hcmd
          exact .inr (.inr (.inl ⟨hr, hs, w, hcmd, h⟩))
      · rename_i hc
        have hs : s.ready = false := by simpa [cmdReady, hr] using hc
        injection h with h
        exact .inr (.inr (.inr ⟨hr, hs, h.symm⟩))

/-- The output handshake leaves the state alone, or takes the head byte of `outq` to the sink. -/
theorem outputEdge_cases (p : Pins) (s : State) :
    outputEdge p s = s ∨ ∃ b bs, s.outq = b :: bs ∧ outputEdge p s = { s with outq := bs, sink := s.sink ++ [b] } := by
  unfold outputEdge
  split
  · rename_i h
    cases hq : s.outq with
    | nil => simp [outValid, hq] at h
    | cons b bs => exact .inr ⟨b, bs, rfl, by simp [State.transfer, hq]⟩
  · exact .inl rfl

/-- A step is a clock edge, or a record at the formatter's input of a ready block. -/
theorem step_cases (h : step s = .next t) :
    ((s.formatterIn = none ∨ s.ready = false) ∧ clockEdge s.pinsNow s.advance = .next t) ∨
    ∃ bytes i rest, s.formatterIn = some bytes ∧ s.ready = true ∧ decodeRecord bytes = .ok (i, rest) ∧
      exec i s.clearFormatterIn = .next t := by
  unfold step blockStep at h
  split at h
  · rename_i hf
    exact .inl ⟨.inl hf, h⟩
  · rename_i bytes hf
    split at h
    · rename_i hr
      unfold formatterStep at h
      split at h
      · rename_i i rest hd
        exact .inr ⟨bytes, i, rest, hf, hr, hd, h⟩
      · cases h
    · rename_i hr
      exact .inl ⟨.inr (by simpa using hr), h⟩

/-- A step that finds no record at the formatter's input is a clock edge. -/
theorem step_of_no_record (h : s.formatterIn = none) : step s = clockEdge s.pinsNow s.advance := by
  simp [step, blockStep, h]

end Sys2Proof.Machine
end

