-- ==== Sys2Proof/Tests/Slice0.lean ====
section
/-! SUPPORT. Tests: well-formedness, words written out from the spec's encodings, one step on a small state for each
instruction (expected values from 95_test_vectors.md or by hand from the rules), and a witness for the hypotheses of
each statement that has some. -/

namespace Sys2Proof.Tests

open Sys2Proof Sys2Proof.Machine

/-! ### Helpers -/

/-- A block in a session at threshold `x` with the given `prev` and pending run. -/
def session (x : Byte) (prev : Pixel) (run : BitVec 6) : State :=
  { State.reset with phase := .active, prev := prev, run := run, thr := x }

/-- A block right after INIT 0. -/
def fresh : State := session 0#8 initialPixel 0#6

/-- The grey pixel of one value, opaque. -/
def grey (v : Byte) : Pixel := ⟨v, v, v, 255#8⟩

/-- The next state of an outcome, if it has one. -/
def next? : Host.Outcome State Fault Refusal → Option State
  | .next s => some s
  | .fault _ => none
  | .refused _ => none

/-- What waits in `outq` after an instruction. -/
def emitted (i : Instr) (s : State) : Option (List Byte) := (next? (exec i s)).map (·.outq)

/-- The status outputs after an instruction: `phase`, `fault`, `fault_code`. -/
def status (i : Instr) (s : State) : Option (BitVec 2 × Bool × BitVec 3) :=
  (next? (exec i s)).map fun t => (t.phasePin, t.faultPin, t.faultCodePin)

/-- The bytes a command sequence gives the sink, from reset. -/
def stream (is : List Instr) : Option (List Byte) := (next? (transactAll is State.reset)).map (·.sink)

/-! ### Well-formedness: an ill-formed term for each check -/

theorem test_diff_dr_range : wellFormed (.diff 2 0 0) = false := by decide
theorem test_diff_dg_range : wellFormed (.diff 0 (-3) 0) = false := by decide
theorem test_diff_db_range : wellFormed (.diff 0 0 2) = false := by decide
theorem test_luma_dg_range : wellFormed (.luma 32 0 0) = false := by decide
theorem test_luma_drg_range : wellFormed (.luma 0 8 0) = false := by decide
theorem test_luma_dbg_range : wellFormed (.luma 0 0 (-9)) = false := by decide
theorem test_run_zero : wellFormed (.run 0) = false := by decide
theorem test_run_above_cap : wellFormed (.run 63) = false := by decide
theorem test_ranges_accepted : wellFormed (.diff (-2) 1 0) = true ∧ wellFormed (.luma (-32) 7 (-8)) = true ∧
    wellFormed (.luma 31 (-8) 7) = true ∧ wellFormed (.run 1) = true ∧ wellFormed (.run 62) = true := by decide

/-! ### Decoding: words written out from the encoding (30_encoding.md R80 to R97, 95_test_vectors.md V5 to V10) -/

theorem test_decode_init : decodeCommand 0x10000000000000000FF#75 = .init 255#8 := by decide
theorem test_decode_init_ignored : decodeCommand 0x1FFFFFFFFFFFFFFFF00#75 = .init 0#8 := by decide
theorem test_decode_pixel : decodeCommand 0x20000000000010203FF#75 = .pixel ⟨1#8, 2#8, 3#8, 255#8⟩ := by decide
theorem test_decode_finalize : decodeCommand 0x3000000000000000000#75 = .finalize := by decide
/-- HEADER 0x12345678,0x9ABCDEF0,3 (95_test_vectors.md W3), with the fields of 30_encoding.md R84. -/
theorem test_decode_header :
    decodeCommand 0x4123456789ABCDEF003#75 = .header 0x12345678#32 0x9ABCDEF0#32 3#8 := by decide
theorem test_decode_footer : decodeCommand 0x5000000000000000000#75 = .footer := by decide
theorem test_decode_reserved000 : decodeCommand 0x0000000000000000000#75 = .reserved000 := by decide
theorem test_decode_reserved110 : decodeCommand 0x6000000000000000000#75 = .reserved110 := by decide
theorem test_decode_reserved111 : decodeCommand 0x7000000000000000000#75 = .reserved111 := by decide
theorem test_decode_index : decodeRecord [0x22#8] = .ok (.index 34#6, []) := by decide
theorem test_decode_diff : decodeRecord [0x4D#8] = .ok (.diff (-2) 1 (-1), []) := by decide
theorem test_decode_luma : decodeRecord [0xBE#8, 0x2F#8, 0x00#8] = .ok (.luma 30 (-6) 7, [0x00#8]) := by decide
theorem test_decode_run : decodeRecord [0xFD#8] = .ok (.run 62, []) := by decide
theorem test_decode_rgb :
    decodeRecord [0xFE#8, 0xFF#8, 0x0A#8, 0x0B#8] = .ok (.rgb 255#8 10#8 11#8, []) := by decide
theorem test_decode_rgba :
    decodeRecord [0xFF#8, 0x01#8, 0x02#8, 0x03#8, 0x00#8] = .ok (.rgba 1#8 2#8 3#8 0#8, []) := by decide
theorem test_decode_truncated : decodeRecord [0xFE#8, 0x64#8] = .error (.truncated 0xFE#8) := by decide
theorem test_decode_no_bytes : decode (.record []) = .error .noBytes := by decide
/-- `PIXEL 10,10,10,255` is `010:00000000000A0A0AFF` (30_encoding.md R88). -/
theorem test_encode_pixel : encode (.pixel (grey 10#8)) = .command 0x200000000000A0A0AFF#75 := by decide
theorem test_table_word_command : decodeTableWord 80 0x4000000400000000104 = some (.header 64#32 1#32 4#8) := by
  decide
/-- The second byte of a record row is bits 15..8 (spec/opcode_table.json). -/
theorem test_table_word_record : decodeTableWord 16 0x2FBE = some (.luma 30 (-6) 7) := by decide

/-! ### Notation (30_encoding.md R88, R100) -/

theorem test_assemble_line :
    assemble ['P', 'I', 'X', 'E', 'L', ' ', '1', '0', ',', '1', '0', ',', '0', 'x', 'A', ',', '2', '5', '5'] =
      some (.command 0x200000000000A0A0AFF#75) := by decide
theorem test_assemble_too_large : assemble ['I', 'N', 'I', 'T', ' ', '2', '5', '6'] = none := by decide

/-! ### The datapath (95_test_vectors.md V1, V2, V7) -/

theorem test_near_at_two : near ⟨12#8, 8#8, 10#8, 255#8⟩ (grey 10#8) 2#8 = true := by decide
theorem test_near_at_one : near ⟨12#8, 8#8, 10#8, 255#8⟩ (grey 10#8) 1#8 = false := by decide
theorem test_near_alpha : near ⟨10#8, 10#8, 10#8, 254#8⟩ (grey 10#8) 255#8 = false := by decide
theorem test_hash_white_transparent : pixelHash ⟨255#8, 255#8, 255#8, 0#8⟩ = 49#6 := by decide
/-- From 255 to 0 the delta is -255 and not +1 (41_encode_pixel.md R132). -/
theorem test_delta_does_not_wrap : deltaR ⟨0#8, 10#8, 10#8, 255#8⟩ ⟨255#8, 10#8, 10#8, 255#8⟩ = -255 := by decide

/-! ### One step of each instruction -/

theorem test_init_discards_run : (next? (exec (.init 7#8) (session 0#8 (grey 9#8) 5#6))).map
    (fun t => (t.prev, t.run, t.thr, t.phase, t.outq)) = some (initialPixel, 0#6, 7#8, .active, []) := by decide
/-- 95_test_vectors.md W1: LUMA 10,0,0, then DIFF 1,-1,1. -/
theorem test_pixel_luma : emitted (.pixel (grey 10#8)) fresh = some [0xAA#8, 0x88#8] := by decide
/-- 95_test_vectors.md V3: the flush comes first, and the LUMA is taken from the anchor. -/
theorem test_pixel_flush_then_anchor :
    emitted (.pixel (grey 54#8)) (session 3#8 (grey 50#8) 1#6) = some [0xC0#8, 0xA4#8, 0x88#8] := by decide
theorem test_finalize_61 : emitted .finalize (session 0#8 initialPixel 61#6) = some [0xFC#8] := by decide
theorem test_finalize_unconfigured : status .finalize State.reset = some (0#2, true, 2#3) := by decide
theorem test_header_big_endian : emitted (.header 0x12345678#32 0x9ABCDEF0#32 3#8) fresh =
    some [0x71#8, 0x6F#8, 0x69#8, 0x66#8, 0x12#8, 0x34#8, 0x56#8, 0x78#8, 0x9A#8, 0xBC#8, 0xDE#8, 0xF0#8, 0x03#8,
      0x00#8] := by decide
theorem test_header_bad_channels : status (.header 2#32 1#32 5#8) State.reset = some (0#2, true, 4#3) := by decide
theorem test_footer_terminator : emitted .footer fresh =
    some [0x00#8, 0x00#8, 0x00#8, 0x00#8, 0x00#8, 0x00#8, 0x00#8, 0x01#8] := by decide
theorem test_reserved000 : status .reserved000 fresh = some (1#2, true, 1#3) := by decide
theorem test_reserved110 : status .reserved110 fresh = some (1#2, true, 1#3) := by decide
theorem test_reserved111 : status .reserved111 fresh = some (1#2, true, 1#3) := by decide
theorem test_index_23 : emitted (.index 23#6) fresh = some [0x17#8] := by decide
theorem test_diff_extremes : emitted (.diff (-2) (-2) (-2)) fresh = some [0x40#8] ∧
    emitted (.diff 1 1 1) fresh = some [0x7F#8] := by decide
theorem test_luma_fields : emitted (.luma 30 (-6) 7) fresh = some [0xBE#8, 0x2F#8] := by decide
theorem test_run_38 : emitted (.run 38) fresh = some [0xE5#8] := by decide
theorem test_rgb_order : emitted (.rgb 1#8 2#8 3#8) fresh = some [0xFE#8, 1#8, 2#8, 3#8] := by decide
theorem test_rgba_order : emitted (.rgba 1#8 2#8 3#8 4#8) fresh = some [0xFF#8, 1#8, 2#8, 3#8, 4#8] := by decide

/-! ### The step -/

/-- 95_test_vectors.md V9: PIXEL before INIT, as the first command after reset. -/
theorem test_step_pixel_from_reset :
    (next? (step (State.reset.withFetchWord 80 0x20000000000010203FF))).map
      (fun t => (t.fault, t.faultCode, t.outq, t.phase)) = some (true, 2#3, [], .unconfigured) := by decide
theorem test_step_record_from_reset :
    (next? (step (State.reset.withFetchWord 32 0x030201FE))).map (·.outq) = some [0xFE#8, 1#8, 2#8, 3#8] := by decide
/-- With a byte waiting, the offered command is not accepted, the byte is transferred, and the offer stays. -/
theorem test_step_transfers_first :
    (next? (step { fresh with outq := [5#8, 6#8], inputs := [⟨false, some 0#75, true⟩] })).map
      (fun t => (t.outq, t.sink, t.held, t.fault)) = some ([6#8], [5#8], some 0#75, false) := by decide
/-- `rst` clears the fault and loses the waiting bytes (70_reset_and_hazards.md R250). -/
theorem test_step_reset :
    (next? (step { fresh with fault := true, faultCode := 3#3, outq := [5#8], inputs := [⟨true, none, true⟩] })).map
      (fun t => (t.phase, t.fault, t.faultCode, t.outq, t.sink)) = some (.unconfigured, false, 0#3, [], []) := by decide

/-! ### Sequences of the spec -/

/-- 95_test_vectors.md P1. -/
theorem test_image_p1 : stream (imageCommands 2#32 1#32 4#8 0#8 [grey 10#8, ⟨11#8, 9#8, 11#8, 255#8⟩]) =
    some [0x71#8, 0x6F#8, 0x69#8, 0x66#8, 0x00#8, 0x00#8, 0x00#8, 0x02#8, 0x00#8, 0x00#8, 0x00#8, 0x01#8, 0x04#8,
      0x00#8, 0xAA#8, 0x88#8, 0x77#8, 0x00#8, 0x00#8, 0x00#8, 0x00#8, 0x00#8, 0x00#8, 0x00#8, 0x01#8] := by decide
/-- 95_test_vectors.md W6 and 41_encode_pixel.md R153: a larger threshold can absorb fewer pixels. -/
theorem test_threshold_not_monotone :
    stream (sessionCommands 2#8 [⟨3#8, 0#8, 0#8, 255#8⟩, ⟨5#8, 0#8, 0#8, 255#8⟩, ⟨1#8, 0#8, 0#8, 255#8⟩]) =
      some [0xA0#8, 0xB8#8, 0xC1#8] ∧
    stream (sessionCommands 3#8 [⟨3#8, 0#8, 0#8, 255#8⟩, ⟨5#8, 0#8, 0#8, 255#8⟩, ⟨1#8, 0#8, 0#8, 255#8⟩]) =
      some [0xC0#8, 0xA0#8, 0xD8#8, 0xA0#8, 0x48#8] := by decide
/-- 95_test_vectors.md W4, third row: INDEX although only alpha differs. -/
theorem test_index_across_alpha :
    stream (sessionCommands 0#8 [⟨1#8, 2#8, 3#8, 255#8⟩, ⟨1#8, 2#8, 3#8, 0#8⟩, ⟨1#8, 2#8, 3#8, 255#8⟩]) =
      some [0xA2#8, 0x79#8, 0xFF#8, 0x01#8, 0x02#8, 0x03#8, 0x00#8, 0x17#8] := by decide

/-! ### Witnesses: the hypotheses of each statement are met -/

theorem witness_DecodeOfEncode : wellFormed (.luma (-32) (-8) 7) = true := by decide
theorem witness_EncodeOfDecode : decodeRecord [0x80#8, 0x08#8, 0x01#8] = .ok (.luma (-32) (-8) 0, [0x01#8]) := by decide
theorem witness_DecodedIsWellFormed : decode (.record [0x40#8]) = .ok (.diff (-2) (-2) (-2)) := by decide
theorem witness_FirstByteSelectsRecord :
    (0x3F#8 : Byte).extractLsb' 6 2 = 0#2 ∧ (0x40#8 : Byte).extractLsb' 6 2 = 1#2 ∧
    (0xBF#8 : Byte).extractLsb' 6 2 = 2#2 ∧ (0xFD#8 : Byte).extractLsb' 6 2 = 3#2 ∧ (0xFD#8 : Byte).toNat ≤ 0xFD := by
  decide
theorem witness_IgnoredBitsHaveNoEffect :
    commandOp 0x1FFFFFFFFFFFFFFFF07#75 = commandOp 0x1000000000000000007#75 ∧
    0x1FFFFFFFFFFFFFFFF07#75 &&& commandUsedBits (commandOp 0x1FFFFFFFFFFFFFFFF07#75) =
      0x1000000000000000007#75 &&& commandUsedBits (commandOp 0x1FFFFFFFFFFFFFFFF07#75) ∧
    State.reset.formatterIn = none ∧ State.reset.held = none ∧ State.reset.fault = false ∧ State.reset.outq = [] := by
  decide
theorem witness_PixelPackingIsRGBA : commandOp 0x20000000000010203FF#75 = 2#3 ∧
    decodeCommand 0x20000000000010203FF#75 = .pixel ⟨1#8, 2#8, 3#8, 255#8⟩ := by decide

/-- Reset, with the command word `w` offered at the next edge. -/
def offering (w : CommandWord) : State := { State.reset with inputs := [⟨false, some w, false⟩] }

theorem witness_StepRunsOfferedCommand :
    (offering 1#75).formatterIn = none ∧ (offering 1#75).pinsNow.rst = false ∧
    (offering 1#75).pinsNow.cmd = some 1#75 ∧ (offering 1#75).held = none ∧ (offering 1#75).fault = false ∧
    (offering 1#75).outq = [] := by decide
/-- The same with the offer already held. -/
theorem witness_StepRunsOfferedCommand_held :
    let s := { offering 1#75 with held := some 1#75 }
    s.formatterIn = none ∧ s.pinsNow.rst = false ∧ s.pinsNow.cmd = some 1#75 ∧ s.held = some 1#75 ∧
    s.fault = false ∧ s.outq = [] := by decide
theorem witness_StepRunsFormatterRecord :
    let s := { State.reset with formatterIn := some [0x17#8] }
    s.formatterIn = some [0x17#8] ∧ decodeRecord [0x17#8] = .ok (.index 23#6, []) ∧ s.fault = false ∧ s.outq = [] := by
  decide
theorem witness_FetchedWordRuns : decodeTableWord 80 0x3000000000000000000 = some .finalize ∧
    decodeTableWord 8 0xC0 = some (.run 1) := by decide
theorem witness_ResetEdge :
    let s := { fresh with outq := [1#8], inputs := [⟨true, none, false⟩] }
    s.formatterIn = none ∧ s.pinsNow.rst = true ∧ s.held = none := by decide
theorem witness_OutputHandshake :
    let s := { fresh with outq := [1#8], inputs := [⟨false, some 0#75, true⟩] }
    let u := { fresh with outq := [1#8], inputs := [⟨false, some 0#75, false⟩], held := some 0#75 }
    (s.formatterIn = none ∧ s.pinsNow.rst = false ∧ s.held = none ∧ s.outq = 1#8 :: [] ∧ s.pinsNow.outReady = true) ∧
    (u.formatterIn = none ∧ u.pinsNow.rst = false ∧ u.pinsNow.cmd = u.held ∧ u.outq = 1#8 :: [] ∧
      u.pinsNow.outReady = false) := by decide
theorem witness_ChangedOfferHasNoMove :
    let s := { fresh with held := some 1#75, inputs := [⟨false, some 2#75, false⟩] }
    s.formatterIn = none ∧ s.held = some 1#75 ∧ s.pinsNow.cmd ≠ some 1#75 ∧ step s = .refused .offerChanged := by
  refine ⟨rfl, rfl, by decide, rfl⟩
theorem witness_StepStopsOnlyOnUndecodable :
    step { State.reset with formatterIn := some [0x80#8] } = .fault (.undecodable (.truncated 0x80#8)) := rfl
theorem witness_IdleEdgeChangesNothing :
    State.reset.formatterIn = none ∧ State.reset.pinsNow.rst = false ∧ State.reset.pinsNow.cmd = none ∧
    State.reset.held = none ∧ State.reset.outq = [] := by decide

/-- A faulted block. -/
def faulted : State := { State.reset with fault := true, faultCode := 2#3 }

theorem witness_FaultIsSticky :
    faulted.fault = true ∧ faulted.pinsNow.rst = false ∧ (next? (step faulted)).isSome = true ∧
    (next? (exec .footer faulted)).isSome = true ∧ faulted.formatterIn = none := by decide
theorem witness_FaultIsSticky_reset :
    let s := { faulted with inputs := [⟨true, none, false⟩] }
    s.fault = true ∧ s.formatterIn = none ∧ s.pinsNow.rst = true ∧ (next? (step s)).isSome = true := by decide
theorem witness_OutputIsAppendOnly :
    (offering 0x5000000000000000000#75).pinsNow.rst = false ∧
    (next? (step (offering 0x5000000000000000000#75))).isSome = true := by decide
theorem witness_TransactionIsHandshakes :
    State.reset.formatterIn = none ∧ State.reset.held = none ∧ State.reset.fault = false ∧ State.reset.outq = [] ∧
    ∃ u, transact (decodeCommand 0x5000000000000000000#75) { State.reset with inputs := [] } = .next u :=
  ⟨rfl, rfl, rfl, rfl, _, rfl⟩

/-- The whole invariant holds of a block in a session with a run at its bound. -/
theorem witness_StepKeepsInvariant : (session 0#8 initialPixel 61#6).Inv ∧
    (next? (step (session 0#8 initialPixel 61#6))).isSome = true := by
  refine ⟨⟨?_, ?_, ?_, ?_, ?_, ?_, ?_⟩, by decide⟩
  · intro _; decide
  · intro h; cases h
  · constructor <;> decide
  · intro h; cases h
  · exact Nat.zero_le _
  · intro _ i
    exact .inl (by simp [session, State.reset, State.cacheRead])
  · intro _
    exact .inl rfl
theorem witness_RunCountStaysBounded :
    (session 0#8 initialPixel 61#6).RunBounded ∧ (session 0#8 initialPixel 0#6).RunBounded ∧
    (session 0#8 initialPixel 61#6).phase = .active ∧ near initialPixel initialPixel 0#8 = true ∧
    (next? (exec (.pixel initialPixel) (session 0#8 initialPixel 61#6))).isSome = true := by
  refine ⟨fun _ => by decide, fun _ => by decide, rfl, by decide, by decide⟩
theorem witness_SlotsHoldTheirHash : fresh.CacheHashed ∧ (next? (step fresh)).isSome = true := by
  refine ⟨fun _ i => .inl (by simp [fresh, session, State.reset, State.cacheRead]), by decide⟩

/-- A session in which the zero pixel, in slot 0, is `prev`. -/
def anchored : State := session 0#8 zeroPixel 0#6

theorem witness_AnchorStaysCached :
    fresh.phase = .active ∧ near (grey 10#8) fresh.prev fresh.thr = false ∧
    (next? (exec (.pixel (grey 10#8)) fresh)).isSome = true ∧ (∀ x, Instr.footer ≠ .init x) ∧
    anchored.AnchorCached ∧ (next? (exec .footer anchored)).isSome = true := by
  refine ⟨rfl, by decide, by decide, (fun x h => nomatch h), rfl, by decide⟩
theorem witness_UnwrittenStateIsNeverRead :
    let s := { State.reset with prev := grey 1#8, run := 9#6, thr := 3#8, inputs := [⟨false, some 0#75, false⟩] }
    let u := { State.reset with inputs := [⟨false, some 0#75, false⟩] }
    s.phase = .unconfigured ∧ s ≠ u ∧ SameButUnwritten s u ∧ (next? (step s)).isSome = true := by
  refine ⟨rfl, fun h => ?_, ⟨rfl, rfl, rfl, rfl, rfl, rfl, rfl, rfl, rfl⟩, by decide⟩
  have h := congrArg State.run h
  revert h
  decide
theorem witness_SessionsAreIndependent :
    let s := session 5#8 (grey 1#8) 7#6
    let u := { State.reset with phase := .finalized }
    s ≠ u ∧ s.fault = u.fault ∧ s.faultCode = u.faultCode ∧ s.outq = u.outq ∧ SameEnvironment s u := by
  refine ⟨fun h => ?_, rfl, rfl, rfl, ⟨rfl, rfl, rfl, rfl, rfl⟩⟩
  have h := congrArg State.run h
  revert h
  decide

/-- A block after FINALIZE. -/
def finished : State := { fresh with phase := .finalized }

theorem witness_FinalizeFlushesRun :
    State.reset.phase = .unconfigured ∧ (fresh.phase = .active ∧ fresh.run = 0#6) ∧
    ((session 0#8 initialPixel 1#6).phase = .active ∧ (session 0#8 initialPixel 1#6).run ≠ 0#6) ∧
    finished.phase = .finalized := by decide
theorem witness_SecondFinalizeIsNoOp :
    (session 0#8 initialPixel 1#6).phase ≠ .unconfigured ∧
    (next? (exec .finalize (session 0#8 initialPixel 1#6))).isSome = true := by decide
theorem witness_PhasesFollowLifecycle :
    (next? (exec (.init 0#8) finished)).isSome = true ∧ (next? (exec (.pixel zeroPixel) fresh)).isSome = true ∧
    (next? (exec (.pixel zeroPixel) State.reset)).isSome = true ∧
    (next? (exec (.pixel zeroPixel) finished)).isSome = true ∧ (next? (exec .finalize fresh)).isSome = true ∧
    (next? (exec .finalize State.reset)).isSome = true ∧
    (next? (exec (.header 0#32 0#32 3#8) fresh)).isSome = true ∧ (next? (exec .footer fresh)).isSome = true := by
  decide
theorem witness_RangeTestsAreExact :
    diffOk ⟨8#8, 11#8, 9#8, 255#8⟩ (grey 10#8) = true ∧ diffOk ⟨7#8, 10#8, 10#8, 255#8⟩ (grey 10#8) = false ∧
    lumaOk (grey 131#8) (grey 100#8) = true ∧ lumaOk (grey 132#8) (grey 100#8) = false ∧
    deltaR (grey 132#8) (grey 100#8) = ((grey 132#8).r.toNat : Int) - (grey 100#8).r.toNat := by decide
theorem witness_ThresholdSaturates : (255 : Int) ≤ 255 ∧ (255 : Int) ≤ 1000 := by decide
theorem witness_NearPixelContinuesRun :
    (session 0#8 initialPixel 60#6).phase = .active ∧ near initialPixel initialPixel 0#8 = true ∧
    (session 0#8 initialPixel 60#6).run.toNat + 1 < 62 ∧ (session 0#8 initialPixel 61#6).run.toNat + 1 = 62 := by decide
theorem witness_RunAboveBoundCountsInSixBits :
    (session 0#8 initialPixel 62#6).phase = .active ∧ near initialPixel initialPixel 0#8 = true ∧
    62 < (session 0#8 initialPixel 62#6).run.toNat + 1 ∧ 62 < (session 0#8 initialPixel 63#6).run.toNat + 1 := by decide
theorem witness_FlushComesBeforeRecord :
    let s := session 0#8 initialPixel 1#6
    s.phase = .active ∧ near (grey 10#8) s.prev s.thr = false ∧ s.run ≠ 0#6 := by decide
theorem witness_CacheHitEmitsIndex :
    fresh.phase = .active ∧ near zeroPixel fresh.prev fresh.thr = false ∧
    fresh.cacheRead (pixelHash zeroPixel) = zeroPixel := by decide
theorem witness_CacheMissStoresAndEncodes :
    fresh.phase = .active ∧ near (grey 10#8) fresh.prev fresh.thr = false ∧
    fresh.cacheRead (pixelHash (grey 10#8)) ≠ grey 10#8 ∧
    (10 : Int) = ((grey 10#8).r.toNat : Int) - fresh.prev.r.toNat := by decide
/-- A miss of each kind from `prev` (0,0,0,255): RGBA, DIFF, LUMA, RGB. -/
theorem witness_CacheMissStoresAndEncodes_kinds :
    (⟨1#8, 1#8, 1#8, 0#8⟩ : Pixel).a ≠ fresh.prev.a ∧
    ((grey 1#8).a = fresh.prev.a ∧ diffOk (grey 1#8) fresh.prev = true) ∧
    (diffOk (grey 31#8) fresh.prev = false ∧ lumaOk (grey 31#8) fresh.prev = true) ∧
    (diffOk (grey 32#8) fresh.prev = false ∧ lumaOk (grey 32#8) fresh.prev = false) := by decide
theorem witness_PixelOutsideSessionFaults :
    State.reset.phase = .unconfigured ∧ finished.phase = .finalized := by decide
theorem witness_PixelOutputLength : fresh.phase = .active ∧ near initialPixel fresh.prev fresh.thr = true ∧
    fresh.run.toNat ≠ 61 ∧ near (grey 10#8) fresh.prev fresh.thr = false ∧ fresh.run = 0#6 := by decide
/-- A run at its bound: near emits `FD`, and a non-near pixel has a flush before its record. -/
theorem witness_PixelOutputLength_pending :
    let s := session 0#8 initialPixel 61#6
    s.phase = .active ∧ s.run ≠ 0#6 ∧ s.run.toNat ≤ 61 ∧ s.run.toNat = 61 ∧ near initialPixel s.prev s.thr = true ∧
    near (grey 10#8) s.prev s.thr = false := by decide
/-- Six bytes: RUN 61 (`FC`, 42_formatter.md R173), then RGBA. -/
theorem witness_PixelOutputLength_six :
    emitted (.pixel ⟨1#8, 2#8, 3#8, 4#8⟩) (session 0#8 initialPixel 61#6) =
      some [0xFC#8, 0xFF#8, 1#8, 2#8, 3#8, 4#8] := by decide
theorem witness_ModesChangeAsStated :
    (fresh.phase = .active ∧ fresh.run.toNat ≤ 61 ∧ fresh.mode = .idle ∧ near initialPixel fresh.prev fresh.thr = true ∧
      near (grey 10#8) fresh.prev fresh.thr = false) ∧
    ((session 0#8 initialPixel 60#6).mode = .accumulatingRun ∧ (session 0#8 initialPixel 60#6).run.toNat ≤ 60) ∧
    (session 0#8 initialPixel 61#6).run.toNat = 61 := by decide
theorem witness_ZeroDeltasAreNeverSent :
    near (grey 10#8) initialPixel 0#8 = false ∧ (grey 10#8).a = initialPixel.a ∧ fresh.phase = .active ∧
    near (grey 10#8) fresh.prev fresh.thr = false ∧ near initialPixel fresh.prev fresh.thr = true := by decide
/-- The selector does choose DIFF and LUMA: at the ends of DIFF's range, and one past its upper end. -/
theorem witness_ZeroDeltasAreNeverSent_select :
    select (grey 1#8) initialPixel 0#8 zeroPixel = .diff ∧ select (grey 8#8) (grey 10#8) 0#8 zeroPixel = .diff ∧
    select (grey 2#8) initialPixel 0#8 zeroPixel = .luma := by decide
theorem witness_CacheWritePolicy :
    (next? (exec (.pixel (grey 10#8)) fresh)).isSome = true ∧ near (grey 10#8) fresh.prev fresh.thr = false ∧
    fresh.cacheRead (pixelHash (grey 10#8)) ≠ grey 10#8 ∧ near initialPixel fresh.prev fresh.thr = true ∧
    fresh.cacheRead (pixelHash zeroPixel) = zeroPixel ∧ State.reset.phase ≠ .active := by decide
theorem witness_RegisterWriters :
    (next? (exec (.init 9#8) fresh)).map (fun t => decide (t.thr ≠ fresh.thr)) = some true ∧
    (next? (exec (.pixel (grey 10#8)) fresh)).map (fun t => decide (t.prev ≠ fresh.prev)) = some true ∧
    (next? (exec (.pixel initialPixel) fresh)).map (fun t => decide (t.run ≠ fresh.run)) = some true ∧
    (next? (exec .finalize fresh)).map (fun t => decide (t.phase ≠ fresh.phase)) = some true := by decide
theorem witness_RecordsEmitTheirBytes : wellFormed (.diff (-2) 1 0) = true ∧ wellFormed (.luma (-32) 7 (-8)) = true ∧
    wellFormed (.run 62) = true := by decide
theorem witness_RecordsEmitTheirLayout : wellFormed (.run 62) = true ∧ encode (.run 62) = .record [0xFD#8] := by decide
theorem witness_RunFieldIsNeverATag :
    (session 0#8 initialPixel 61#6).phase = .active ∧ (session 0#8 initialPixel 61#6).run ≠ 0#6 ∧
    (session 0#8 initialPixel 61#6).run.toNat ≤ 61 ∧ near (grey 10#8) initialPixel 0#8 = false ∧
    near initialPixel initialPixel 0#8 = true := by decide
theorem witness_HeaderEmitsFourteenBytes :
    ((3#8 : Byte) = 3#8 ∨ (3#8 : Byte) = 4#8) ∧ ((4#8 : Byte) = 3#8 ∨ (4#8 : Byte) = 4#8) ∧
    ((2#8 : Byte) ≠ 3#8 ∧ (2#8 : Byte) ≠ 4#8) ∧ ((5#8 : Byte) ≠ 3#8 ∧ (5#8 : Byte) ≠ 4#8) := by decide
theorem witness_FramingIsIndependentOfEncoder :
    (next? (exec (.header 0#32 0#32 3#8) fresh)).isSome = true ∧ (next? (exec .footer fresh)).isSome = true ∧
    SameEncoder fresh { fresh with outq := [1#8], fault := true } ∧
    (next? (exec (.pixel (grey 10#8)) { fresh with outq := [1#8], fault := true })).isSome = true := by
  refine ⟨by decide, by decide, ⟨rfl, rfl, rfl, rfl, rfl⟩, by decide⟩
theorem witness_OpAloneDecides :
    commandOp 0x1000000000000000000#75 = 1#3 ∧ commandOp 0x2000000000000000000#75 = 2#3 ∧
    commandOp 0x3000000000000000000#75 = 3#3 ∧ commandOp 0x4000000000000000000#75 = 4#3 ∧
    commandOp 0x5000000000000000000#75 = 5#3 ∧ commandOp 0#75 = 0#3 ∧
    commandOp 0x6000000000000000000#75 = 6#3 ∧ commandOp 0x7FFFFFFFFFFFFFFFFFF#75 = 7#3 := by decide
theorem witness_FaultEntryIsPrecise :
    fresh.fault = false ∧ (next? (exec .reserved000 fresh)).map (·.fault) = some true ∧
    (next? (exec .footer fresh)).map (·.fault) = some false := by decide
theorem witness_DecoderFollowsPixel :
    let s := session 0#8 initialPixel 61#6
    s.phase = .active ∧ s.run.toNat ≤ 61 ∧ s.outq = [] ∧ near initialPixel s.prev s.thr = true ∧ s.run.toNat = 61 ∧
    near (grey 10#8) s.prev s.thr = false ∧ fresh.run.toNat ≠ 61 := by decide
theorem witness_SessionDecodesWithinThreshold : State.reset.fault = false ∧ State.reset.outq = [] := by decide
theorem witness_ThresholdZeroIsLossless : finished.fault = false ∧ finished.outq = [] := by decide
theorem witness_ImageIsFramed :
    ((4#8 : Byte) = 3#8 ∨ (4#8 : Byte) = 4#8) ∧ State.reset.fault = false ∧ State.reset.outq = [] := by decide

end Sys2Proof.Tests
end

section
/-! PROOF. The transaction view is what the handshakes do: the edge that accepts a command runs its
meaning, which leaves the environment alone, and each further edge with the sink ready takes one byte of `outq`. -/

namespace Sys2Proof.Machine

/-! ### The environment under a meaning -/

/-- PIXEL in phase Active touches no field of the environment. -/
theorem encodePixel_sameEnvironment (px : Pixel) (s : State) : SameEnvironment (encodePixel px s) s := by
  obtain ⟨-, -, e⟩ | ⟨-, -, e⟩ | ⟨-, -, e⟩ | ⟨-, -, e⟩ := encodePixel_result s px <;>
    rw [e] <;> exact ⟨rfl, rfl, rfl, rfl, rfl⟩

/-- No instruction touches a field of the environment. -/
theorem exec_sameEnvironment {i : Instr} {s t : State} (h : exec i s = .next t) : SameEnvironment t s := by
  obtain ⟨_, -, rfl⟩ | ⟨px, -, -, rfl⟩ | ⟨_, -, -, rfl⟩ | ⟨_, -, -, rfl⟩ | ⟨-, -, rfl⟩ | ⟨-, -, rfl⟩ | ⟨-, -, rfl⟩ |
    ⟨_, _, _, -, -, -, rfl⟩ | ⟨-, rfl⟩ | ⟨_, rfl, -⟩ := exec_cases h
  case inr.inl => exact encodePixel_sameEnvironment px s
  all_goals simp [SameEnvironment]

/-! ### The two views of a state with nothing to transfer -/

/-- With no byte to transfer, taking every byte changes nothing. -/
theorem State.drain_of_outq_nil {s : State} (hq : s.outq = []) : s.drain = s := by
  cases s
  simp_all [State.drain]

/-- With no offer held, holding none changes nothing. -/
theorem State.setHeld_none_of_held_none {s : State} (hh : s.held = none) : s.setHeld none = s := by
  cases s
  simp_all [State.setHeld]

/-- A transaction of a ready block is the meaning, then the transfer of its bytes (20_memory.md R70). -/
theorem transact_of_ready {i : Instr} {s u : State} (hf : s.fault = false) (hq : s.outq = [])
    (h : transact i s = .next u) : ∃ t, exec i s = .next t ∧ u = t.drain := by
  simp only [transact, hf, State.drain_of_outq_nil hq, Bool.false_eq_true, if_false] at h
  split at h
  · rename_i t ht
    injection h with h
    exact ⟨t, ht, h.symm⟩
  · cases h
  · cases h

/-! ### The edges -/

/-- A step that answers a next state is the first of many. -/
theorem stepMany_succ_of_step {s t : State} (n : Nat) (h : step s = .next t) : stepMany (n + 1) s = stepMany n t := by
  simp [stepMany, h]

/-- With no record at the formatter's input, a step is the clock edge of the first pins of the schedule. -/
theorem step_of_inputs_cons {s : State} (p : Pins) (later : List Pins) (hform : s.formatterIn = none) :
    step { s with inputs := p :: later } = clockEdge p { s with inputs := later } :=
  step_of_no_record (s := { s with inputs := p :: later }) hform

/-- An edge that offers `w` to a ready block runs the command of `w` (70_reset_and_hazards.md R255). -/
theorem clockEdge_of_offer {s : State} (w : CommandWord) (outReady : Bool) (hh : s.held = none)
    (hready : s.ready = true) : clockEdge ⟨false, some w, outReady⟩ s = exec (decodeCommand w) s := by
  simp [clockEdge, commandEdge, cmdReady, offerChanged, hh, hready, State.setHeld_none_of_held_none hh]

/-- An edge with the sink ready and nothing offered takes the head byte of `outq` (70_reset_and_hazards.md R256). -/
theorem clockEdge_of_sinkReady {s : State} (hh : s.held = none) (hq : s.outq ≠ []) :
    clockEdge ⟨false, none, true⟩ s = .next s.transfer := by
  simp [clockEdge, outputEdge, outValid, cmdReady, State.ready, offerChanged, hh, hq,
    State.setHeld_none_of_held_none hh]

/-- Taking the head byte and then all the others is taking all. -/
theorem State.drain_transfer (s : State) : s.transfer.drain = s.drain := by
  have hsplit : s.outq.head?.toList ++ s.outq.tail = s.outq := by cases s.outq <;> rfl
  simp [State.transfer, State.drain, hsplit]

/-- One edge a byte with the sink ready transfers every byte of `outq`, by induction on the bytes. -/
theorem stepMany_drain (n : Nat) {s : State} (later : List Pins) (hform : s.formatterIn = none) (hh : s.held = none)
    (hn : s.outq.length = n) :
    stepMany n { s with inputs := List.replicate n ⟨false, none, true⟩ ++ later } =
      .next { s.drain with inputs := later } := by
  induction n generalizing s with
  | zero =>
    rw [State.drain_of_outq_nil (List.length_eq_zero_iff.mp hn)]
    rfl
  | succ n ih =>
    have hq : s.outq ≠ [] := List.ne_nil_of_length_eq_add_one hn
    have htail : s.transfer.outq.length = n := by simp [hn]
    have hedge : step { s with inputs := List.replicate (n + 1) ⟨false, none, true⟩ ++ later } =
        .next { s.transfer with inputs := List.replicate n ⟨false, none, true⟩ ++ later } :=
      (step_of_inputs_cons _ _ hform).trans (clockEdge_of_sinkReady hh hq)
    calc stepMany (n + 1) { s with inputs := List.replicate (n + 1) ⟨false, none, true⟩ ++ later }
        = stepMany n { s.transfer with inputs := List.replicate n ⟨false, none, true⟩ ++ later } :=
          stepMany_succ_of_step n hedge
      _ = .next { s.transfer.drain with inputs := later } := ih (s := s.transfer) hform hh htail
      _ = .next { s.drain with inputs := later } := by rw [State.drain_transfer]

/-- Settles O18: the accepting edge runs the command (`clockEdge_of_offer`), and the bytes it left are transferred one
an edge (`stepMany_drain`). -/
theorem transactionIsHandshakes : Obligations.TransactionIsHandshakes := by
  unfold Obligations.TransactionIsHandshakes
  intro s u w later hform hh hf hq htr
  obtain ⟨t, hexec, rfl⟩ := transact_of_ready (s := { s with inputs := later }) hf hq htr
  obtain ⟨hsink, hinputs, hheld, hformt, -⟩ := exec_sameEnvironment hexec
  have hcount : t.drain.sink.length - s.sink.length = t.outq.length := by simp [hsink]
  have hready : s.ready = true := State.ready_iff.mpr ⟨hf, hq⟩
  have haccept (pins : List Pins) :
      step { s with inputs := ⟨false, some w, false⟩ :: pins } = .next { t with inputs := pins } :=
    calc step { s with inputs := ⟨false, some w, false⟩ :: pins }
        = clockEdge ⟨false, some w, false⟩ { s with inputs := pins } := step_of_inputs_cons _ _ hform
      _ = exec (decodeCommand w) { s with inputs := pins } := clockEdge_of_offer w false hh hready
      _ = .next { t with inputs := pins } := exec_withInputs { s with inputs := later } _ pins hexec
  have hlater : { t.drain with inputs := later } = t.drain := by
    rw [show later = t.drain.inputs from hinputs.symm]
  rw [hcount, stepMany_succ_of_step _ (haccept _),
    stepMany_drain _ later (hformt.trans hform) (hheld.trans hh) rfl, hlater]

end Sys2Proof.Machine
end

section
/-! PROOF. The encoder registers: how a pixel packs (10_state.md R31), who writes which register (R32 to R38), that INIT
overwrites all of them (R45), and that none is read before INIT has written it (R44). -/

namespace Sys2Proof.Machine

open Host (Outcome)

/-! ### The packing of a pixel -/

section Packing

variable (px : Pixel)

theorem extract_pixelPack_r : (pixelPack px).extractLsb' 24 8 = px.r :=
  ((BitVec.extractLsb'_append_eq_of_le (by decide)).trans (BitVec.extractLsb'_append_eq_of_le (by decide))).trans
    BitVec.extractLsb'_append_eq_left

theorem extract_pixelPack_g : (pixelPack px).extractLsb' 16 8 = px.g :=
  ((BitVec.extractLsb'_append_eq_of_le (by decide)).trans (BitVec.extractLsb'_append_eq_of_le (by decide))).trans
    BitVec.extractLsb'_append_eq_right

theorem extract_pixelPack_b : (pixelPack px).extractLsb' 8 8 = px.b :=
  (BitVec.extractLsb'_append_eq_of_le (by decide)).trans BitVec.extractLsb'_append_eq_right

theorem extract_pixelPack_a : (pixelPack px).extractLsb' 0 8 = px.a :=
  BitVec.extractLsb'_append_eq_right

theorem pixelUnpack_pixelPack : pixelUnpack (pixelPack px) = px := by
  simp only [pixelUnpack, extract_pixelPack_r, extract_pixelPack_g, extract_pixelPack_b, extract_pixelPack_a]

end Packing

/-- The four channels of a 32-bit value, side by side, are the value: adjacent extracts join. -/
theorem pixelPack_pixelUnpack (v : BitVec 32) : pixelPack (pixelUnpack v) = v := by
  simp only [pixelPack, pixelUnpack]
  rw [BitVec.extractLsb'_append_extractLsb'_eq_extractLsb' (by decide),
    BitVec.extractLsb'_append_extractLsb'_eq_extractLsb' (by decide),
    BitVec.extractLsb'_append_extractLsb'_eq_extractLsb' (by decide)]
  exact BitVec.extractLsb'_eq_self

/-- A word with op 2 is PIXEL with its channels in the low four bytes (30_encoding.md R83). -/
theorem decodeCommand_of_op_pixel {w : CommandWord} (h : commandOp w = 2#3) :
    decodeCommand w =
      .pixel ⟨w.extractLsb' 24 8, w.extractLsb' 16 8, w.extractLsb' 8 8, w.extractLsb' 0 8⟩ := by
  simp [decodeCommand, h]

/-- The pixel unpacked from the low 32 bits of a word has the word's low four bytes as its channels. -/
theorem pixelUnpack_extract (w : CommandWord) :
    pixelUnpack (w.extractLsb' 0 32) =
      ⟨w.extractLsb' 24 8, w.extractLsb' 16 8, w.extractLsb' 8 8, w.extractLsb' 0 8⟩ := by
  simp [pixelUnpack, BitVec.extractLsb'_extractLsb'_of_le]

/-- Settles O7: each channel is an extract of the packed value, and PIXEL's payload has the same layout. -/
theorem pixelPackingIsRGBA : Obligations.PixelPackingIsRGBA := by
  unfold Obligations.PixelPackingIsRGBA
  refine ⟨fun px => ⟨extract_pixelPack_r px, extract_pixelPack_g px, extract_pixelPack_b px, extract_pixelPack_a px⟩,
    pixelUnpack_pixelPack, pixelPack_pixelUnpack, fun w px hop hdec => ?_, fun w hop => ?_⟩
  · rw [decodeCommand_of_op_pixel hop] at hdec
    injection hdec with hpx
    subst hpx
    exact ⟨rfl, rfl, rfl, rfl⟩
  · rw [decodeCommand_of_op_pixel hop, pixelUnpack_extract]

/-! ### Who writes the registers -/

/-- A near pixel in phase Active only joins the run (41_encode_pixel.md R137). -/
theorem exec_pixel_of_near {px : Pixel} {s : State} (hp : s.phase = .active) (hn : near px s.prev s.thr = true) :
    exec (.pixel px) s = .next (continueRun s) := by
  have he : encodePixel px s = continueRun s := by
    obtain ⟨-, e⟩ | ⟨hf, -⟩ | ⟨hf, -⟩ := encodePixel_cases s px
    · exact e
    all_goals simp [hn] at hf
  calc exec (.pixel px) s = execPixel px s := rfl
    _ = .next (encodePixel px s) := execPixel_of_active s px hp
    _ = .next (continueRun s) := by rw [he]

/-- Settles O59: the one value at which the run accumulator does not just count is 61. -/
theorem runAboveBoundCountsInSixBits : Obligations.RunAboveBoundCountsInSixBits := by
  unfold Obligations.RunAboveBoundCountsInSixBits
  intro px s hp hn hrun
  rw [exec_pixel_of_near hp hn]
  obtain ⟨hcap, -⟩ | ⟨-, e⟩ := continueRun_cases s
  · omega
  · rw [e]

@[simp] theorem encodePixel_thr (px : Pixel) (s : State) : (encodePixel px s).thr = s.thr := by
  obtain ⟨-, -, e⟩ | ⟨-, -, e⟩ | ⟨-, -, e⟩ | ⟨-, -, e⟩ := encodePixel_result s px <;> rw [e]

@[simp] theorem encodePixel_phase (px : Pixel) (s : State) : (encodePixel px s).phase = s.phase := by
  obtain ⟨-, -, e⟩ | ⟨-, -, e⟩ | ⟨-, -, e⟩ | ⟨-, -, e⟩ := encodePixel_result s px <;> rw [e]

/-- A pixel that moves `prev` is not near: a run keeps its anchor (10_state.md R33). -/
theorem near_eq_false_of_encodePixel_prev_ne {px : Pixel} {s : State} (h : (encodePixel px s).prev ≠ s.prev) :
    near px s.prev s.thr = false := by
  obtain ⟨-, -, e⟩ | ⟨-, -, e⟩ | ⟨hn, -⟩ | ⟨hn, -⟩ := encodePixel_result s px
  · exact absurd (by rw [e]) h
  · exact absurd (by rw [e]) h
  · exact hn
  · exact hn

/-- Settles O44, by the inversion `exec_cases`: INIT may write all four registers, PIXEL in phase Active and FINALIZE
some, and every other meaning raises a fault or emits. -/
theorem registerWriters : Obligations.RegisterWriters := by
  unfold Obligations.RegisterWriters
  intro i s t h
  obtain ⟨x, rfl, -⟩ | ⟨px, rfl, -, rfl⟩ | ⟨_, -, -, rfl⟩ | ⟨_, -, -, rfl⟩ | ⟨-, -, rfl⟩ | ⟨rfl, -, rfl⟩ | ⟨-, -, rfl⟩ |
    ⟨_, _, _, -, -, -, rfl⟩ | ⟨-, rfl⟩ | ⟨_, rfl, -⟩ := exec_cases h
  case inl => simp
  case inr.inl => simpa using near_eq_false_of_encodePixel_prev_ne
  all_goals simp

/-! ### INIT overwrites the encoder state -/

/-- The state INIT leaves, field by field: no old `prev`, `run`, `cache`, `thr` or `phase` is in it
(40_session.md R111). -/
theorem exec_init_fields (x : Byte) (s : State) :
    exec (.init x) s = .next
      { prev := initialPixel, run := 0#6, cache := Vector.replicate 64 zeroPixel, thr := x, phase := .active,
        fault := s.fault, faultCode := s.faultCode, outq := s.outq, sink := s.sink, inputs := s.inputs,
        held := s.held, formatterIn := s.formatterIn, freeIdx := s.freeIdx } :=
  rfl

/-- Settles O27: every field INIT keeps is one the two states share. -/
theorem sessionsAreIndependent : Obligations.SessionsAreIndependent := by
  unfold Obligations.SessionsAreIndependent
  intro x s₁ s₂ hfault hcode houtq ⟨hsink, hinputs, hheld, hform, hidx⟩
  rw [exec_init_fields, exec_init_fields, hfault, hcode, houtq, hsink, hinputs, hheld, hform, hidx]

/-! ### Two blocks that differ in the unwritten elements

Each operation on the state that a block in phase Unconfigured performs keeps `SameButUnwritten`; INIT and reset end the
difference. -/

namespace SameButUnwritten

variable {s t : State}

theorem refl (s : State) : SameButUnwritten s s := ⟨rfl, rfl, rfl, rfl, rfl, rfl, rfl, rfl, rfl⟩

theorem emit (h : SameButUnwritten s t) (bytes : List Byte) : SameButUnwritten (s.emit bytes) (t.emit bytes) := by
  simpa [SameButUnwritten] using h

theorem raiseFault (h : SameButUnwritten s t) (c : FaultCause) :
    SameButUnwritten (s.raiseFault c) (t.raiseFault c) := by
  simp_all [SameButUnwritten]

theorem advance (h : SameButUnwritten s t) : SameButUnwritten s.advance t.advance := by
  simp_all [SameButUnwritten]

theorem setHeld (h : SameButUnwritten s t) (cmd : Option CommandWord) :
    SameButUnwritten (s.setHeld cmd) (t.setHeld cmd) := by
  simp_all [SameButUnwritten]

theorem clearFormatterIn (h : SameButUnwritten s t) : SameButUnwritten s.clearFormatterIn t.clearFormatterIn := by
  simp_all [SameButUnwritten]

theorem transfer (h : SameButUnwritten s t) : SameButUnwritten s.transfer t.transfer := by
  simp_all [SameButUnwritten]

theorem phase_eq (h : SameButUnwritten s t) : s.phase = t.phase := h.1

theorem held_eq (h : SameButUnwritten s t) : s.held = t.held := by
  obtain ⟨-, -, -, -, -, -, hheld, -⟩ := h
  exact hheld

theorem formatterIn_eq (h : SameButUnwritten s t) : s.formatterIn = t.formatterIn := by
  obtain ⟨-, -, -, -, -, -, -, hform, -⟩ := h
  exact hform

/-- Reset gives the unwritten elements values that depend on the number of the reset alone. -/
theorem resetBlock_eq (h : SameButUnwritten s t) : s.resetBlock = t.resetBlock := by
  obtain ⟨-, -, -, -, hsink, hinputs, hheld, hform, hidx⟩ := h
  simp [State.resetBlock, hsink, hinputs, hheld, hform, hidx]

theorem pinsNow_eq (h : SameButUnwritten s t) : s.pinsNow = t.pinsNow := by
  obtain ⟨-, -, -, -, -, hinputs, hheld, -, -⟩ := h
  simp [State.pinsNow, hinputs, hheld]

theorem ready_eq (h : SameButUnwritten s t) : s.ready = t.ready := by
  obtain ⟨-, hfault, -, houtq, -⟩ := h
  simp [State.ready, hfault, houtq]

theorem cmdReady_eq (h : SameButUnwritten s t) (p : Pins) : cmdReady p s = cmdReady p t := by
  simp [cmdReady, h.ready_eq]

theorem outValid_eq (h : SameButUnwritten s t) (p : Pins) : outValid p s = outValid p t := by
  obtain ⟨-, -, -, houtq, -⟩ := h
  simp [outValid, houtq]

end SameButUnwritten

/-- Two outcomes agree up to the unwritten elements: the same stop for the same reason, or next states that differ in
those elements at most, and in nothing once a session is open. -/
inductive AgreeUpToUnwritten : Outcome State Fault Refusal → Outcome State Fault Refusal → Prop where
  | next {t₁ t₂ : State} (same : SameButUnwritten t₁ t₂) (session : t₁.phase ≠ .unconfigured → t₁ = t₂) :
      AgreeUpToUnwritten (.next t₁) (.next t₂)
  | fault (r : Fault) : AgreeUpToUnwritten (.fault r) (.fault r)
  | refused (r : Refusal) : AgreeUpToUnwritten (.refused r) (.refused r)

namespace AgreeUpToUnwritten

theorem refl : ∀ o : Outcome State Fault Refusal, AgreeUpToUnwritten o o
  | .next t => .next (.refl t) fun _ => rfl
  | .fault r => .fault r
  | .refused r => .refused r

/-- While no session is open, the difference may stay. -/
theorem next_of_unconfigured {t₁ t₂ : State} (hp : t₁.phase = .unconfigured) (h : SameButUnwritten t₁ t₂) :
    AgreeUpToUnwritten (.next t₁) (.next t₂) :=
  .next h fun hne => absurd hp hne

variable {o : Outcome State Fault Refusal}

theorem of_next {t₁ : State} : AgreeUpToUnwritten (.next t₁) o →
    ∃ t₂, o = .next t₂ ∧ SameButUnwritten t₁ t₂ ∧ (t₁.phase ≠ .unconfigured → t₁ = t₂)
  | .next same session => ⟨_, rfl, same, session⟩

theorem of_fault {r : Fault} : AgreeUpToUnwritten (.fault r) o → o = .fault r
  | .fault _ => rfl

theorem of_refused {r : Refusal} : AgreeUpToUnwritten (.refused r) o → o = .refused r
  | .refused _ => rfl

end AgreeUpToUnwritten

section Unconfigured

variable {s₁ s₂ : State} (hp : s₁.phase = .unconfigured) (h : SameButUnwritten s₁ s₂)

include hp h

/-- In phase Unconfigured no meaning reads an unwritten element: INIT overwrites them, PIXEL and FINALIZE fault, and the
rest touch none. -/
theorem exec_agreeUpToUnwritten (i : Instr) : AgreeUpToUnwritten (exec i s₁) (exec i s₂) := by
  have hp₂ : s₂.phase = .unconfigured := h.phase_eq.symm.trans hp
  have hfault (c : FaultCause) : AgreeUpToUnwritten (.next (s₁.raiseFault c)) (.next (s₂.raiseFault c)) :=
    .next_of_unconfigured hp (h.raiseFault c)
  have hemit (bytes : List Byte) : AgreeUpToUnwritten (.next (s₁.emit bytes)) (.next (s₂.emit bytes)) :=
    .next_of_unconfigured hp (h.emit bytes)
  cases i with
  | init x =>
    obtain ⟨-, hf, hcode, houtq, henv⟩ := h
    rw [sessionsAreIndependent x s₁ s₂ hf hcode houtq henv]
    exact .refl _
  | pixel px =>
    simp only [exec, execPixel_of_unconfigured _ _ hp, execPixel_of_unconfigured _ _ hp₂]
    exact hfault _
  | finalize =>
    simp only [exec, execFinalize_of_unconfigured _ hp, execFinalize_of_unconfigured _ hp₂]
    exact hfault _
  | header w hh c =>
    simp only [exec, execHeader]
    split
    · exact hemit _
    · exact hfault _
  | reserved000 | reserved110 | reserved111 => exact hfault _
  | footer | index | diff | luma | run | rgb | rgba => exact hemit _

/-- The output handshake reads `outq` alone. -/
theorem outputEdge_agreeUpToUnwritten (p : Pins) :
    AgreeUpToUnwritten (.next (outputEdge p s₁)) (.next (outputEdge p s₂)) := by
  simp only [outputEdge, h.outValid_eq p]
  split
  · exact .next_of_unconfigured hp h.transfer
  · exact .next_of_unconfigured hp h

theorem commandEdge_agreeUpToUnwritten (p : Pins) : AgreeUpToUnwritten (commandEdge p s₁) (commandEdge p s₂) := by
  unfold commandEdge
  split
  · exact .next_of_unconfigured hp (h.setHeld none)
  · exact exec_agreeUpToUnwritten (s₁ := s₁.setHeld none) hp (h.setHeld none) _

/-- At a clock edge both blocks take the same branch: what decides it, the pins, the held offer and readiness, is
shared. -/
theorem clockEdge_agreeUpToUnwritten (p : Pins) : AgreeUpToUnwritten (clockEdge p s₁) (clockEdge p s₂) := by
  unfold clockEdge
  rw [h.held_eq, h.cmdReady_eq p, (h.setHeld p.cmd).resetBlock_eq]
  split_ifs
  · exact .refused _
  · exact .refl _
  · exact commandEdge_agreeUpToUnwritten hp h p
  · exact outputEdge_agreeUpToUnwritten (s₁ := s₁.setHeld p.cmd) hp (h.setHeld p.cmd) p

theorem formatterStep_agreeUpToUnwritten (bytes : List Byte) :
    AgreeUpToUnwritten (formatterStep bytes s₁) (formatterStep bytes s₂) := by
  unfold formatterStep
  split
  · exact exec_agreeUpToUnwritten (s₁ := s₁.clearFormatterIn) hp h.clearFormatterIn _
  · exact .fault _

/-- A step, too, takes the same branch in both blocks. -/
theorem step_agreeUpToUnwritten : AgreeUpToUnwritten (step s₁) (step s₂) := by
  have hedge : AgreeUpToUnwritten (clockEdge s₁.pinsNow s₁.advance) (clockEdge s₁.pinsNow s₂.advance) :=
    clockEdge_agreeUpToUnwritten (s₁ := s₁.advance) hp h.advance _
  simp only [step, blockStep, h.formatterIn_eq, ← h.pinsNow_eq, h.ready_eq]
  split
  · exact hedge
  · split
    · exact formatterStep_agreeUpToUnwritten hp h _
    · exact hedge

end Unconfigured

/-- Settles O25: `step_agreeUpToUnwritten`, read off for each outcome of the first block. -/
theorem unwrittenStateIsNeverRead : Obligations.UnwrittenStateIsNeverRead := by
  unfold Obligations.UnwrittenStateIsNeverRead
  intro s₁ s₂ hp h
  have hagree := step_agreeUpToUnwritten hp h
  refine ⟨fun t₁ e => ?_, fun r e => ?_, fun r e => ?_⟩ <;> rw [e] at hagree
  · exact hagree.of_next
  · exact hagree.of_fault
  · exact hagree.of_refused

end Sys2Proof.Machine
end

section
/-! PROOF. The memory of the block (20_memory.md): which instructions write the color cache (R62), and the output
stream, to which every meaning and every step only appends (R70). -/

namespace Sys2Proof.Machine

/-- A meaning has one next state. -/
theorem exec_next_unique {i : Instr} {s t u : State} (ht : exec i s = .next t) (hu : exec i s = .next u) : t = u :=
  Host.Outcome.next.inj (ht.symm.trans hu)

/-! ### The cache under PIXEL -/

section PixelCache

variable {px : Pixel} {s t : State}

/-- A near pixel and a hit leave the cache alone (20_memory.md R62). -/
theorem encodePixel_cache_of_near_or_hit (h : near px s.prev s.thr = true ∨ s.cacheRead (pixelHash px) = px) :
    (encodePixel px s).cache = s.cache := by
  obtain ⟨-, -, e⟩ | ⟨-, -, e⟩ | ⟨-, -, e⟩ | ⟨hn, hc, -⟩ := encodePixel_result s px
  · rw [e]
  · rw [e]
  · rw [e]
  · simp [hn, hc] at h

/-- A non-near pixel that misses is written into its slot, whatever record it gets (20_memory.md R62). -/
theorem encodePixel_cache_of_miss (hn : near px s.prev s.thr = false) (hc : s.cacheRead (pixelHash px) ≠ px) :
    (encodePixel px s).cache = (s.cacheWrite (pixelHash px) px).cache := by
  obtain ⟨hn', -⟩ | ⟨hn', -⟩ | ⟨-, hc', -⟩ | ⟨-, -, e⟩ := encodePixel_result s px
  · simp [hn] at hn'
  · simp [hn] at hn'
  · exact absurd hc' hc
  · rw [e]

/-- The run accumulator does not read the cache: over another one it does the same and leaves that one. -/
theorem continueRun_withCache (other : Vector Pixel 64) :
    continueRun { s with cache := other } = { continueRun s with cache := other } := by
  unfold continueRun
  split <;> rfl

/-- PIXEL outside phase Active raises a fault, whatever the cache holds (60_exceptions.md R220). -/
theorem exec_pixel_of_not_active (px : Pixel) (hp : s.phase ≠ .active) :
    ∃ c, ∀ other, exec (.pixel px) { s with cache := other } = .next { s.raiseFault c with cache := other } := by
  obtain hp' | hp' | hp' := phase_cases s.phase
  · exact ⟨.notInitialised, fun other => execPixel_of_unconfigured { s with cache := other } px hp'⟩
  · exact absurd hp' hp
  · exact ⟨.pixelAfterFinalize, fun other => execPixel_of_finalized { s with cache := other } px hp'⟩

/-- PIXEL outside phase Active, of a near pixel or of one that hits leaves the cache alone (20_memory.md R62). -/
theorem exec_pixel_cache_eq (h : exec (.pixel px) s = .next t)
    (hkeep : s.phase ≠ .active ∨ near px s.prev s.thr = true ∨ s.cacheRead (pixelHash px) = px) :
    t.cache = s.cache := by
  by_cases hp : s.phase = .active
  · obtain rfl := exec_next_unique h (execPixel_of_active s px hp)
    exact encodePixel_cache_of_near_or_hit (hkeep.resolve_left (not_not_intro hp))
  · obtain ⟨c, hfault⟩ := exec_pixel_of_not_active px hp
    rw [exec_next_unique h (hfault s.cache)]

/-- A near pixel does not read the cache, in any phase: over another one it does the same and leaves that one
(20_memory.md R62). -/
theorem exec_pixel_withCache_of_near (hn : near px s.prev s.thr = true) (h : exec (.pixel px) s = .next t)
    (other : Vector Pixel 64) :
    exec (.pixel px) { s with cache := other } = .next { t with cache := other } := by
  by_cases hp : s.phase = .active
  · obtain rfl := exec_next_unique h (exec_pixel_of_near hp hn)
    rw [exec_pixel_of_near (s := { s with cache := other }) hp hn, continueRun_withCache]
  · obtain ⟨c, hfault⟩ := exec_pixel_of_not_active px hp
    obtain rfl := exec_next_unique h (hfault s.cache)
    exact hfault other

end PixelCache

/-! ### The cache under the other instructions -/

/-- No instruction but PIXEL and INIT writes the cache. -/
theorem exec_cache_of_ne_pixel_of_ne_init {i : Instr} {s t : State} (h : exec i s = .next t)
    (hpixel : ∀ px, i ≠ .pixel px) (hinit : ∀ x, i ≠ .init x) : t.cache = s.cache := by
  obtain ⟨x, e, -⟩ | ⟨px, e, -⟩ | ⟨px, e, -⟩ | ⟨px, e, -⟩ | ⟨-, -, rfl⟩ | ⟨-, -, rfl⟩ | ⟨-, -, rfl⟩ |
    ⟨_, _, _, -, -, -, rfl⟩ | ⟨-, rfl⟩ | ⟨_, rfl, -⟩ := exec_cases h
  case inl => exact absurd e (hinit x)
  case inr.inl | inr.inr.inl | inr.inr.inr.inl => exact absurd e (hpixel px)
  all_goals simp

/-- Settles O43, clause by clause: the miss, the hit or the fault, the near pixel, INIT, and every other
instruction. -/
theorem cacheWritePolicy : Obligations.CacheWritePolicy := by
  unfold Obligations.CacheWritePolicy
  intro i s t h
  refine ⟨?miss, ?hitOrFault, ?near, ?init, exec_cache_of_ne_pixel_of_ne_init h⟩
  case miss =>
    rintro px rfl hp hn hc
    obtain rfl := exec_next_unique h (execPixel_of_active s px hp)
    have hcache := State.cacheRead_congr (encodePixel_cache_of_miss hn hc)
    exact ⟨(hcache _).trans (State.cacheRead_cacheWrite_same ..),
      fun j hj => (hcache j).trans (State.cacheRead_cacheWrite_ne _ _ _ _ hj.symm)⟩
  case hitOrFault =>
    rintro px rfl hor
    exact exec_pixel_cache_eq h (hor.imp_right .inr)
  case near =>
    rintro px rfl hn
    exact ⟨exec_pixel_cache_eq h (.inr (.inl hn)), exec_pixel_withCache_of_near hn h⟩
  case init =>
    rintro x rfl j
    obtain rfl := exec_next_unique h (exec_init_fields x s)
    exact State.cacheRead_cacheClear s j

/-! ### What a meaning appends to `outq` -/

/-- `t` has what waits in `s` and at most `n` bytes after it. -/
def AppendsAtMost (n : Nat) (s t : State) : Prop := ∃ bytes, t.outq = s.outq ++ bytes ∧ bytes.length ≤ n

namespace AppendsAtMost

variable {n m : Nat} {s t : State}

theorem of_outq_eq (h : t.outq = s.outq) : AppendsAtMost n s t := ⟨[], by simpa using h, Nat.zero_le n⟩

theorem emit {bytes : List Byte} (h : bytes.length ≤ n) : AppendsAtMost n s (s.emit bytes) := ⟨bytes, rfl, h⟩

theorem mono (h : AppendsAtMost n s t) (hnm : n ≤ m) : AppendsAtMost m s t := by
  obtain ⟨bytes, hq, hlen⟩ := h
  exact ⟨bytes, hq, hlen.trans hnm⟩

end AppendsAtMost

/-- A flush appends at most one byte (41_encode_pixel.md R139). -/
theorem flushRun_appends (s : State) : AppendsAtMost 1 s (flushRun s) :=
  ⟨_, flushRun_outq s, flushBytes_length s.run⟩

/-- One more near pixel appends nothing, or the byte of RUN 62 at the cap (41_encode_pixel.md R138). -/
theorem continueRun_appends (s : State) : AppendsAtMost Config.maxPixelBytes s (continueRun s) := by
  obtain ⟨-, e⟩ | ⟨-, e⟩ := continueRun_cases s
  · exact ⟨formatRun 62, by rw [e], by decide⟩
  · exact .of_outq_eq (by rw [e])

/-- A coded pixel appends its flush and one record of at most five bytes (41_encode_pixel.md R146). -/
theorem codePixel_appends (px : Pixel) (c : Choice) (s : State) :
    AppendsAtMost Config.maxPixelBytes s (codePixel px c s) := by
  refine ⟨flushBytes s.run ++ choiceBytes px s.prev c, by rw [codePixel_frame, List.append_assoc], ?_⟩
  have hlen : (flushBytes s.run).length + (choiceBytes px s.prev c).length ≤ 1 + 5 :=
    Nat.add_le_add (flushBytes_length s.run) (choiceBytes_length px s.prev c)
  simpa using hlen

/-- PIXEL appends at most 6 bytes (41_encode_pixel.md R146). -/
theorem encodePixel_appends (px : Pixel) (s : State) : AppendsAtMost Config.maxPixelBytes s (encodePixel px s) := by
  obtain ⟨-, e⟩ | ⟨-, -, e⟩ | ⟨-, -, e⟩ := encodePixel_cases s px
  · rw [e]
    exact continueRun_appends s
  · rw [e]
    exact codePixel_appends px _ s
  · rw [e]
    exact codePixel_appends px _ s

/-- Every instruction completes, from every state, and appends at most the 14 bytes of a header (10_state.md R40). -/
theorem exec_appends (i : Instr) (s : State) : ∃ t, exec i s = .next t ∧ AppendsAtMost Config.hdrBytes s t := by
  cases i with
  | init | reserved000 | reserved110 | reserved111 => exact ⟨_, rfl, .of_outq_eq rfl⟩
  | pixel px =>
    obtain hp | hp | hp := phase_cases s.phase
    · exact ⟨_, execPixel_of_unconfigured s px hp, .of_outq_eq rfl⟩
    · exact ⟨_, execPixel_of_active s px hp, (encodePixel_appends px s).mono (by decide)⟩
    · exact ⟨_, execPixel_of_finalized s px hp, .of_outq_eq rfl⟩
  | finalize =>
    obtain hp | hp | hp := phase_cases s.phase
    · exact ⟨_, execFinalize_of_unconfigured s hp, .of_outq_eq rfl⟩
    · exact ⟨_, execFinalize_of_active s hp, (flushRun_appends s).mono (by decide)⟩
    · exact ⟨_, execFinalize_of_finalized s hp, .of_outq_eq rfl⟩
  | header w hh c =>
    by_cases hc : c = 3#8 ∨ c = 4#8
    · exact ⟨_, if_pos hc, .emit (by simp [headerBytes, magic, u32be])⟩
    · exact ⟨_, if_neg hc, .of_outq_eq rfl⟩
  | footer => exact ⟨_, rfl, .emit (by decide)⟩
  | index | diff | luma | run | rgb | rgba =>
    exact ⟨_, rfl, .emit (by
      simp [formatIndex, formatDiff, formatLuma, formatRun, formatRgb, formatRgba, Config.hdrBytes])⟩

/-- Settles O45: every meaning completes and appends (`exec_appends`), and keeps the environment
(`exec_sameEnvironment`). -/
theorem instructionsOnlyAppend : Obligations.InstructionsOnlyAppend := by
  unfold Obligations.InstructionsOnlyAppend
  intro i s
  obtain ⟨t, h, bytes, hq, hlen⟩ := exec_appends i s
  exact ⟨t, bytes, h, exec_sameEnvironment h, hq, hlen⟩

/-! ### The output stream under a step -/

/-- `t` comes after `s` in the output: the bytes transferred and then those waiting are those of `s` and new ones
(20_memory.md R70). -/
def ExtendsOutput (s t : State) : Prop := ∃ bytes, t.sink ++ t.outq = s.sink ++ s.outq ++ bytes

theorem ExtendsOutput.of_eq {s t : State} (h : t.sink ++ t.outq = s.sink ++ s.outq) : ExtendsOutput s t :=
  ⟨[], by simpa using h⟩

/-- A meaning transfers nothing and appends to what waits. -/
theorem exec_extendsOutput {i : Instr} {s t : State} (h : exec i s = .next t) : ExtendsOutput s t := by
  obtain ⟨_, h', bytes, hq, -⟩ := exec_appends i s
  obtain rfl := exec_next_unique h h'
  obtain ⟨hsink, -⟩ := exec_sameEnvironment h
  exact ⟨bytes, by rw [hsink, hq, List.append_assoc]⟩

/-- The output handshake moves the head of what waits to the end of what was transferred. -/
theorem outputEdge_output (p : Pins) (s : State) :
    (outputEdge p s).sink ++ (outputEdge p s).outq = s.sink ++ s.outq := by
  obtain e | ⟨b, bs, hq, e⟩ := outputEdge_cases p s
  · rw [e]
  · simp [e, hq]

/-- A clock edge with `rst` low extends the output. -/
theorem clockEdge_extendsOutput {p : Pins} {s t : State} (hr : p.rst = false) (h : clockEdge p s = .next t) :
    ExtendsOutput s t := by
  obtain ⟨-, ⟨hr', -⟩ | ⟨-, -, -, rfl⟩ | ⟨-, -, w, -, hexec⟩ | ⟨-, -, rfl⟩⟩ := clockEdge_cases h
  · simp [hr] at hr'
  · exact .of_eq rfl
  · exact exec_extendsOutput (s := s.setHeld none) hexec
  · exact .of_eq (outputEdge_output p (s.setHeld p.cmd))

/-- Settles O17: a step is a clock edge or the meaning of a record, and both extend the output. -/
theorem outputIsAppendOnly : Obligations.OutputIsAppendOnly := by
  unfold Obligations.OutputIsAppendOnly
  intro s t hr h
  obtain ⟨-, hedge⟩ | ⟨_, _, _, -, -, -, hexec⟩ := step_cases h
  · exact clockEdge_extendsOutput (s := s.advance) hr hedge
  · exact exec_extendsOutput (s := s.clearFormatterIn) hexec

end Sys2Proof.Machine
end

section
/-! PROOF. The encodings (30_encoding.md): what `op` and the payload of a command word stand for (R80 to R87), what the
first byte of a record selects (R91 to R98), and that decoding and encoding undo each other. -/

namespace Sys2Proof.Machine

/-! ### Command words -/

/-- The eight values of `op`. -/
theorem op_cases : ∀ op : BitVec 3,
    op = 0#3 ∨ op = 1#3 ∨ op = 2#3 ∨ op = 3#3 ∨ op = 4#3 ∨ op = 5#3 ∨ op = 6#3 ∨ op = 7#3 := by
  decide

section OpDecides

variable {w : CommandWord}

theorem decodeCommand_of_op_reserved000 (h : commandOp w = 0#3) : decodeCommand w = .reserved000 := by
  simp [decodeCommand, h]

theorem decodeCommand_of_op_init (h : commandOp w = 1#3) : decodeCommand w = .init (w.extractLsb' 0 8) := by
  simp [decodeCommand, h]

theorem decodeCommand_of_op_finalize (h : commandOp w = 3#3) : decodeCommand w = .finalize := by
  simp [decodeCommand, h]

theorem decodeCommand_of_op_header (h : commandOp w = 4#3) :
    decodeCommand w = .header (w.extractLsb' 40 32) (w.extractLsb' 8 32) (w.extractLsb' 0 8) := by
  simp [decodeCommand, h]

theorem decodeCommand_of_op_footer (h : commandOp w = 5#3) : decodeCommand w = .footer := by
  simp [decodeCommand, h]

theorem decodeCommand_of_op_reserved110 (h : commandOp w = 6#3) : decodeCommand w = .reserved110 := by
  simp [decodeCommand, h]

theorem decodeCommand_of_op_reserved111 (h : commandOp w = 7#3) : decodeCommand w = .reserved111 := by
  simp [decodeCommand, h]

end OpDecides

/-- Settles O53: fault entry with the code of ReservedCommand. -/
theorem reservedCodesFault : Obligations.ReservedCodesFault := by
  unfold Obligations.ReservedCodesFault
  rintro i s (rfl | rfl | rfl) <;> rfl

/-- Settles O52: the equation of the decoder at each `op`, and what the reserved codes do (`reservedCodesFault`). -/
theorem opAloneDecides : Obligations.OpAloneDecides := by
  unfold Obligations.OpAloneDecides
  intro w
  refine ⟨fun h => ⟨_, decodeCommand_of_op_init h⟩, fun h => ⟨_, decodeCommand_of_op_pixel h⟩,
    decodeCommand_of_op_finalize, fun h => ⟨_, _, _, decodeCommand_of_op_header h⟩, decodeCommand_of_op_footer,
    fun h s => reservedCodesFault _ s ?_⟩
  exact h.imp decodeCommand_of_op_reserved000 (.imp decodeCommand_of_op_reserved110 decodeCommand_of_op_reserved111)

/-- Settles O1: each word evaluates. -/
theorem decodesSpecWords : Obligations.DecodesSpecWords := by
  unfold Obligations.DecodesSpecWords
  decide

/-! ### Command words and their fields -/

/-- A field of `data` in an assembled command word. -/
theorem extract_commandWord (op : BitVec 3) (data : BitVec 72) {start len : Nat} (h : start + len ≤ 72) :
    (commandWord op data).extractLsb' start len = data.extractLsb' start len :=
  BitVec.extractLsb'_append_eq_of_add_le h

/-- PIXEL's payload is the packed pixel under 40 zero bits (30_encoding.md R83). -/
theorem pixelData_eq (px : Pixel) : (0#40 ++ px.r ++ px.g ++ px.b ++ px.a : BitVec 72) = 0#40 ++ pixelPack px := by
  apply BitVec.eq_of_toNat_eq
  rw [pixelPack]
  iterate 8 rw [BitVec.toNat_append]
  simp

/-- The word of INIT names INIT with its threshold (30_encoding.md R82). -/
theorem decodeCommand_init_word (t : Byte) : decodeCommand (commandWord 1#3 (0#64 ++ t)) = .init t := by
  rw [decodeCommand_of_op_init (commandOp_commandWord _ _), extract_commandWord _ _ (by decide)]
  exact congrArg _ BitVec.extractLsb'_append_eq_right

/-- The word of PIXEL names PIXEL with its pixel (30_encoding.md R83). -/
theorem decodeCommand_pixel_word (px : Pixel) :
    decodeCommand (commandWord 2#3 (0#40 ++ px.r ++ px.g ++ px.b ++ px.a)) = .pixel px := by
  have hpack : (0#40 ++ pixelPack px : BitVec 72).extractLsb' 0 32 = pixelPack px :=
    BitVec.extractLsb'_append_eq_right
  rw [decodeCommand_of_op_pixel (commandOp_commandWord _ _), ← pixelUnpack_extract,
    extract_commandWord _ _ (by decide), pixelData_eq, hpack, pixelUnpack_pixelPack]

/-- The word of HEADER names HEADER with its width, height and channel count (30_encoding.md R84). -/
theorem decodeCommand_header_word (w h : Dim) (c : Byte) :
    decodeCommand (commandWord 4#3 (w ++ h ++ c)) = .header w h c := by
  have hw : (w ++ h ++ c : BitVec 72).extractLsb' 40 32 = w :=
    (BitVec.extractLsb'_append_eq_of_le (by decide)).trans BitVec.extractLsb'_append_eq_left
  have hh : (w ++ h ++ c : BitVec 72).extractLsb' 8 32 = h :=
    (BitVec.extractLsb'_append_eq_of_le (by decide)).trans BitVec.extractLsb'_append_eq_right
  have hc : (w ++ h ++ c : BitVec 72).extractLsb' 0 8 = c := BitVec.extractLsb'_append_eq_right
  rw [decodeCommand_of_op_header (commandOp_commandWord _ _), extract_commandWord _ _ (by decide),
    extract_commandWord _ _ (by decide), extract_commandWord _ _ (by decide), hw, hh, hc]

/-- A command word is its `op` and its `data` (30_encoding.md R80). -/
theorem commandWord_fields (w : CommandWord) : commandWord (commandOp w) (w.extractLsb' 0 72) = w := by
  rw [commandWord, commandOp, BitVec.extractLsb'_append_extractLsb'_eq_extractLsb' (by decide)]
  exact BitVec.extractLsb'_eq_self

/-- The low bits of a word, cut at bit `n`. -/
theorem extract_split (w : CommandWord) (m n : Nat) :
    w.extractLsb' n m ++ w.extractLsb' 0 n = w.extractLsb' 0 (m + n) :=
  BitVec.extractLsb'_append_extractLsb'_eq_extractLsb' (Nat.zero_add n).symm

/-- A mask of ones at both ends and zeros between keeps the ends. -/
theorem and_mask_of_ends {k m n : Nat} (x : BitVec k) (y : BitVec m) (z : BitVec n) :
    (x ++ (y ++ z)) &&& (BitVec.allOnes k ++ (0#m ++ BitVec.allOnes n)) = x ++ (0#m ++ z) := by
  simp only [BitVec.and_append, BitVec.and_allOnes, BitVec.and_zero]

section UsedBits

variable (w : CommandWord)

/-- INIT's rules read `op` and the low byte (30_encoding.md R82). -/
theorem and_usedBits_init :
    w &&& commandUsedBits 1#3 = commandWord (commandOp w) (0#64 ++ w.extractLsb' 0 8) :=
  calc w &&& commandUsedBits 1#3
    _ = commandWord (commandOp w) (w.extractLsb' 8 64 ++ w.extractLsb' 0 8) &&& commandUsedBits 1#3 := by
      rw [extract_split w 64 8, commandWord_fields]
    _ = commandWord (commandOp w) (0#64 ++ w.extractLsb' 0 8) := and_mask_of_ends _ _ _

/-- PIXEL's rules read `op` and the low four bytes (30_encoding.md R83). -/
theorem and_usedBits_pixel :
    w &&& commandUsedBits 2#3 = commandWord (commandOp w) (0#40 ++ w.extractLsb' 0 32) :=
  calc w &&& commandUsedBits 2#3
    _ = commandWord (commandOp w) (w.extractLsb' 32 40 ++ w.extractLsb' 0 32) &&& commandUsedBits 2#3 := by
      rw [extract_split w 40 32, commandWord_fields]
    _ = commandWord (commandOp w) (0#40 ++ w.extractLsb' 0 32) := and_mask_of_ends _ _ _

/-- HEADER's rules read every bit (30_encoding.md R84). -/
theorem and_usedBits_header :
    w &&& commandUsedBits 4#3 =
      commandWord (commandOp w) (w.extractLsb' 40 32 ++ w.extractLsb' 8 32 ++ w.extractLsb' 0 8) := by
  rw [BitVec.extractLsb'_append_extractLsb'_eq_extractLsb' (by decide), extract_split w 64 8, commandWord_fields]
  exact BitVec.and_allOnes

/-- The mask of a command without operands keeps `op` alone (30_encoding.md R85, R87). -/
theorem and_opMask : w &&& 0x7000000000000000000#75 = commandWord (commandOp w) 0#72 :=
  calc w &&& 0x7000000000000000000#75
    _ = commandWord (commandOp w) (w.extractLsb' 0 72) &&& 0x7000000000000000000#75 := by
      rw [commandWord_fields]
    _ = (commandOp w &&& BitVec.allOnes 3) ++ (w.extractLsb' 0 72 &&& 0#72) :=
      BitVec.and_append (x₁ := commandOp w) (x₂ := BitVec.allOnes 3) (y₂ := 0#72)
    _ = commandWord (commandOp w) 0#72 := by rw [BitVec.and_allOnes, BitVec.and_zero, commandWord]

/-- The encoding of a decoded command word is the word with its ignored bits 0 (30_encoding.md R86, R88). -/
theorem encode_decodeCommand : encode (decodeCommand w) = .command (w &&& commandUsedBits (commandOp w)) := by
  have hbare (h : commandUsedBits (commandOp w) = 0x7000000000000000000#75) :
      w &&& commandUsedBits (commandOp w) = commandWord (commandOp w) 0#72 := by
    rw [h, and_opMask]
  obtain h | h | h | h | h | h | h | h := op_cases (commandOp w)
  · rw [decodeCommand_of_op_reserved000 h, hbare (by rw [h]; rfl), h, encode]
  · rw [decodeCommand_of_op_init h, encode, h, and_usedBits_init, h]
  · rw [decodeCommand_of_op_pixel h, encode, h, and_usedBits_pixel, h, pixelData_eq, ← pixelUnpack_extract,
      pixelPack_pixelUnpack]
  · rw [decodeCommand_of_op_finalize h, hbare (by rw [h]; rfl), h, encode]
  · rw [decodeCommand_of_op_header h, encode, h, and_usedBits_header, h]
  · rw [decodeCommand_of_op_footer h, hbare (by rw [h]; rfl), h, encode]
  · rw [decodeCommand_of_op_reserved110 h, hbare (by rw [h]; rfl), h, encode]
  · rw [decodeCommand_of_op_reserved111 h, hbare (by rw [h]; rfl), h, encode]

end UsedBits

/-! ### The first byte of a record -/

section FirstByte

variable {b0 : Byte} (rest : List Byte)

/-- A first byte whose tag is not 11 is neither of the two 8-bit tags (30_encoding.md R91). -/
theorem ne_wideTags_of_tag (h : b0.extractLsb' 6 2 ≠ 3#2) : b0 ≠ 0xFE#8 ∧ b0 ≠ 0xFF#8 := by
  constructor <;> rintro rfl <;> exact h (by decide)

theorem decodeRecord_of_tag_index (h : b0.extractLsb' 6 2 = 0#2) :
    decodeRecord (b0 :: rest) = .ok (.index (b0.extractLsb' 0 6), rest) := by
  obtain ⟨hFE, hFF⟩ := ne_wideTags_of_tag (b0 := b0) (by rw [h]; decide)
  simp [decodeRecord, hFE, hFF, h]

theorem decodeRecord_of_tag_diff (h : b0.extractLsb' 6 2 = 1#2) :
    decodeRecord (b0 :: rest) = .ok (.diff (unbiasField 2 (b0.extractLsb' 4 2)) (unbiasField 2 (b0.extractLsb' 2 2))
      (unbiasField 2 (b0.extractLsb' 0 2)), rest) := by
  obtain ⟨hFE, hFF⟩ := ne_wideTags_of_tag (b0 := b0) (by rw [h]; decide)
  simp [decodeRecord, hFE, hFF, h]

theorem decodeRecord_of_tag_luma (b1 : Byte) (h : b0.extractLsb' 6 2 = 2#2) :
    decodeRecord (b0 :: b1 :: rest) = .ok (.luma (unbiasField 32 (b0.extractLsb' 0 6))
      (unbiasField 8 (b1.extractLsb' 4 4)) (unbiasField 8 (b1.extractLsb' 0 4)), rest) := by
  obtain ⟨hFE, hFF⟩ := ne_wideTags_of_tag (b0 := b0) (by rw [h]; decide)
  simp [decodeRecord, hFE, hFF, h]

/-- The tag 11 is RUN except in the two 8-bit tags (30_encoding.md R91, R95). -/
theorem decodeRecord_of_tag_run (h : b0.extractLsb' 6 2 = 3#2) (hle : b0.toNat ≤ 0xFD) :
    decodeRecord (b0 :: rest) = .ok (.run ((b0.extractLsb' 0 6).toNat + 1), rest) := by
  have hFE : b0 ≠ 0xFE#8 := by rintro rfl; exact absurd hle (by decide)
  have hFF : b0 ≠ 0xFF#8 := by rintro rfl; exact absurd hle (by decide)
  simp [decodeRecord, hFE, hFF, h]

theorem decodeRecord_rgb (r g b : Byte) :
    decodeRecord (0xFE#8 :: r :: g :: b :: rest) = .ok (.rgb r g b, rest) := rfl

theorem decodeRecord_rgba (r g b a : Byte) :
    decodeRecord (0xFF#8 :: r :: g :: b :: a :: rest) = .ok (.rgba r g b a, rest) := rfl

end FirstByte

/-- Settles O5: the equation of the record decoder at each tag. -/
theorem firstByteSelectsRecord : Obligations.FirstByteSelectsRecord := by
  unfold Obligations.FirstByteSelectsRecord
  exact ⟨fun r g b rest => decodeRecord_rgb rest r g b, fun r g b a rest => decodeRecord_rgba rest r g b a,
    fun _ rest h => ⟨_, decodeRecord_of_tag_index rest h⟩,
    fun _ rest h => ⟨_, _, _, decodeRecord_of_tag_diff rest h⟩,
    fun _ b1 rest h => ⟨_, _, _, decodeRecord_of_tag_luma rest b1 h⟩,
    fun _ rest h hle => ⟨_, decodeRecord_of_tag_run rest h hle⟩⟩

/-! ### The fields of a record -/

/-- A range as two bounds. -/
theorem inRange_iff {x lo hi : Int} : inRange x lo hi = true ↔ lo ≤ x ∧ x ≤ hi := by
  simp [inRange]

/-- The value of a stored field of `n` bits lies between the lowest of its range, `-bias`, and the highest
(30_encoding.md R98). -/
theorem inRange_unbiasField {n : Nat} (bias : Int) (f : BitVec n) :
    inRange (unbiasField bias f) (-bias) (2 ^ n - 1 - bias) = true := by
  have hlt : (f.toNat : Int) < 2 ^ n := by exact_mod_cast f.isLt
  rw [inRange_iff, unbiasField]
  generalize (2 : Int) ^ n = p at hlt ⊢
  omega

/-- Storing the value of a field gives the field back. -/
theorem biasField_unbiasField {n : Nat} (bias : Int) (f : BitVec n) : biasField n bias (unbiasField bias f) = f := by
  rw [biasField, unbiasField, Int.sub_add_cancel, BitVec.ofInt_natCast, BitVec.ofNat_toNat, BitVec.setWidth_eq]

theorem wellFormed_diff_iff {dr dg db : Int} : wellFormed (.diff dr dg db) = true ↔
    (-2 ≤ dr ∧ dr ≤ 1) ∧ (-2 ≤ dg ∧ dg ≤ 1) ∧ -2 ≤ db ∧ db ≤ 1 := by
  simp [wellFormed, inRange_iff, and_assoc]

theorem wellFormed_luma_iff {dg drg dbg : Int} : wellFormed (.luma dg drg dbg) = true ↔
    (-32 ≤ dg ∧ dg ≤ 31) ∧ (-8 ≤ drg ∧ drg ≤ 7) ∧ -8 ≤ dbg ∧ dbg ≤ 7 := by
  simp [wellFormed, inRange_iff, and_assoc]

theorem wellFormed_run_iff {n : Nat} : wellFormed (.run n) = true ↔ 1 ≤ n ∧ n ≤ 62 := by
  simp [wellFormed]

/-- A first byte is its tag and its six-bit field. -/
theorem tag_append_field {b0 : Byte} {tag : BitVec 2} (h : (b0.extractLsb' 6 2).toNat = tag.toNat) :
    tag ++ b0.extractLsb' 0 6 = b0 := by
  rw [← BitVec.eq_of_toNat_eq h, BitVec.extractLsb'_append_extractLsb'_eq_extractLsb' (by decide)]
  exact BitVec.extractLsb'_eq_self

/-- A first byte is its tag and three two-bit fields. -/
theorem tag_append_three_fields {b0 : Byte} {tag : BitVec 2} (h : (b0.extractLsb' 6 2).toNat = tag.toNat) :
    tag ++ b0.extractLsb' 4 2 ++ b0.extractLsb' 2 2 ++ b0.extractLsb' 0 2 = b0 := by
  rw [← BitVec.eq_of_toNat_eq h, BitVec.extractLsb'_append_extractLsb'_eq_extractLsb' (by decide),
    BitVec.extractLsb'_append_extractLsb'_eq_extractLsb' (by decide),
    BitVec.extractLsb'_append_extractLsb'_eq_extractLsb' (by decide)]
  exact BitVec.extractLsb'_eq_self

/-- A byte is its two four-bit halves. -/
theorem halves_append (b : Byte) : b.extractLsb' 4 4 ++ b.extractLsb' 0 4 = b := by
  rw [BitVec.extractLsb'_append_extractLsb'_eq_extractLsb' (by decide)]
  exact BitVec.extractLsb'_eq_self

/-- The byte of RUN as a number (30_encoding.md R95). -/
theorem runByte_toNat : ∀ f : BitVec 6, (3#2 ++ f : Byte).toNat = 0xC0 + f.toNat := by decide

/-- The field of a RUN byte other than the two 8-bit tags (30_encoding.md R91, R95). -/
theorem runField_lt {b0 : Byte} (htag : (b0.extractLsb' 6 2).toNat = 3) (hFE : b0 ≠ 0xFE#8) (hFF : b0 ≠ 0xFF#8) :
    (b0.extractLsb' 0 6).toNat < 62 := by
  have hb : b0.toNat = 0xC0 + (b0.extractLsb' 0 6).toNat := by
    rw [← runByte_toNat, tag_append_field htag]
  have : b0.toNat ≠ 0xFE := fun h => hFE (BitVec.eq_of_toNat_eq h)
  have : b0.toNat ≠ 0xFF := fun h => hFF (BitVec.eq_of_toNat_eq h)
  omega

/-! ### Decoding after encoding -/

section OwnBytes

variable (rest : List Byte)

theorem decodeRecord_index_byte (slot : Slot) : decodeRecord ((0#2 ++ slot) :: rest) = .ok (.index slot, rest) := by
  have hfield : (0#2 ++ slot).extractLsb' 0 6 = slot := BitVec.extractLsb'_append_eq_right
  exact (decodeRecord_of_tag_index rest BitVec.extractLsb'_append_eq_left).trans (by rw [hfield])

theorem decodeRecord_diff_byte {dr dg db : Int} (h : wellFormed (.diff dr dg db) = true) :
    decodeRecord ((1#2 ++ biasField 2 2 dr ++ biasField 2 2 dg ++ biasField 2 2 db) :: rest) =
      .ok (.diff dr dg db, rest) := by
  have hfields : ∀ x y z : BitVec 2, (1#2 ++ x ++ y ++ z).extractLsb' 6 2 = 1#2 ∧
      (1#2 ++ x ++ y ++ z).extractLsb' 4 2 = x ∧ (1#2 ++ x ++ y ++ z).extractLsb' 2 2 = y ∧
      (1#2 ++ x ++ y ++ z).extractLsb' 0 2 = z := by decide
  obtain ⟨htag, hr, hg, hb⟩ := hfields (biasField 2 2 dr) (biasField 2 2 dg) (biasField 2 2 db)
  rw [wellFormed_diff_iff] at h
  refine (decodeRecord_of_tag_diff rest htag).trans ?_
  rw [hr, hg, hb, unbiasField_biasField _ _ _ (by omega) (by omega), unbiasField_biasField _ _ _ (by omega) (by omega),
    unbiasField_biasField _ _ _ (by omega) (by omega)]

theorem decodeRecord_luma_bytes {dg drg dbg : Int} (h : wellFormed (.luma dg drg dbg) = true) :
    decodeRecord ((2#2 ++ biasField 6 32 dg) :: (biasField 4 8 drg ++ biasField 4 8 dbg) :: rest) =
      .ok (.luma dg drg dbg, rest) := by
  have hg : (2#2 ++ biasField 6 32 dg).extractLsb' 0 6 = biasField 6 32 dg := BitVec.extractLsb'_append_eq_right
  have hrg : (biasField 4 8 drg ++ biasField 4 8 dbg).extractLsb' 4 4 = biasField 4 8 drg :=
    BitVec.extractLsb'_append_eq_left
  have hbg : (biasField 4 8 drg ++ biasField 4 8 dbg).extractLsb' 0 4 = biasField 4 8 dbg :=
    BitVec.extractLsb'_append_eq_right
  rw [wellFormed_luma_iff] at h
  refine (decodeRecord_of_tag_luma rest _ BitVec.extractLsb'_append_eq_left).trans ?_
  rw [hg, hrg, hbg, unbiasField_biasField _ _ _ (by omega) (by omega),
    unbiasField_biasField _ _ _ (by omega) (by omega), unbiasField_biasField _ _ _ (by omega) (by omega)]

theorem decodeRecord_run_byte {n : Nat} (h : wellFormed (.run n) = true) :
    decodeRecord ((3#2 ++ BitVec.ofNat 6 (n - 1)) :: rest) = .ok (.run n, rest) := by
  obtain ⟨h1, h62⟩ := wellFormed_run_iff.mp h
  have hfield : (3#2 ++ BitVec.ofNat 6 (n - 1)).extractLsb' 0 6 = BitVec.ofNat 6 (n - 1) :=
    BitVec.extractLsb'_append_eq_right
  have hn : (BitVec.ofNat 6 (n - 1)).toNat = n - 1 := Nat.mod_eq_of_lt (by omega)
  have hle : (3#2 ++ BitVec.ofNat 6 (n - 1) : Byte).toNat ≤ 0xFD := by
    rw [runByte_toNat, hn]
    omega
  refine (decodeRecord_of_tag_run rest BitVec.extractLsb'_append_eq_left hle).trans ?_
  rw [hfield, hn, Nat.sub_add_cancel h1]

end OwnBytes

/-- The encoding of a well-formed record, with any bytes after it, is decoded to the record and leaves those bytes. -/
theorem decodeRecord_encode {i : Instr} {own : List Byte} (rest : List Byte) (hwf : wellFormed i = true)
    (henc : encode i = .record own) : decodeRecord (own ++ rest) = .ok (i, rest) := by
  cases i <;> cases henc
  case index slot => exact decodeRecord_index_byte rest slot
  case diff => exact decodeRecord_diff_byte rest hwf
  case luma => exact decodeRecord_luma_bytes rest hwf
  case run => exact decodeRecord_run_byte rest hwf
  case rgb => exact decodeRecord_rgb rest _ _ _
  case rgba => exact decodeRecord_rgba rest _ _ _ _

/-- A command is decoded from its own word. -/
theorem decodeCommand_of_encode {i : Instr} {w : CommandWord} (henc : encode i = .command w) : decodeCommand w = i := by
  cases i <;> cases henc
  case init t => exact decodeCommand_init_word t
  case pixel px => exact decodeCommand_pixel_word px
  case finalize => exact decodeCommand_of_op_finalize (commandOp_commandWord _ _)
  case header w h c => exact decodeCommand_header_word w h c
  case footer => exact decodeCommand_of_op_footer (commandOp_commandWord _ _)
  case reserved000 => exact decodeCommand_of_op_reserved000 (commandOp_commandWord _ _)
  case reserved110 => exact decodeCommand_of_op_reserved110 (commandOp_commandWord _ _)
  case reserved111 => exact decodeCommand_of_op_reserved111 (commandOp_commandWord _ _)

/-- Settles O2: the encoding is a command word (`decodeCommand_of_encode`) or the bytes of a record
(`decodeRecord_encode`). -/
theorem decodeOfEncode : Obligations.DecodeOfEncode := by
  unfold Obligations.DecodeOfEncode
  intro i hwf
  cases henc : encode i with
  | command w => rw [decode, decodeCommand_of_encode henc]
  | record own =>
    have hdec : decodeRecord own = .ok (i, []) := by simpa using decodeRecord_encode [] hwf henc
    rw [decode, hdec]

/-! ### Encoding after decoding -/

/-- A decoded record is encoded by exactly the bytes it was read from (30_encoding.md R99). -/
theorem encode_of_decodeRecord {bytes rest : List Byte} {i : Instr} (h : decodeRecord bytes = .ok (i, rest)) :
    ∃ own, encode i = .record own ∧ bytes = own ++ rest := by
  obtain ⟨r, g, b, rfl, rfl⟩ | ⟨r, g, b, a, rfl, rfl⟩ |
    ⟨b0, rfl, -, -, ⟨htag, rfl⟩ | ⟨htag, rfl⟩ | ⟨htag, rfl⟩⟩ | ⟨b0, b1, rfl, -, -, htag, rfl⟩ := decodeRecord_cases h
  · exact ⟨_, rfl, rfl⟩
  · exact ⟨_, rfl, rfl⟩
  · exact ⟨_, rfl, by rw [tag_append_field htag, List.singleton_append]⟩
  · refine ⟨_, rfl, ?_⟩
    rw [biasField_unbiasField, biasField_unbiasField, biasField_unbiasField, tag_append_three_fields htag,
      List.singleton_append]
  · refine ⟨_, rfl, ?_⟩
    rw [Nat.add_sub_cancel, BitVec.ofNat_toNat, BitVec.setWidth_eq, tag_append_field htag, List.singleton_append]
  · refine ⟨_, rfl, ?_⟩
    rw [biasField_unbiasField, biasField_unbiasField, biasField_unbiasField, tag_append_field htag, halves_append,
      List.cons_append, List.singleton_append]

/-- Settles O3: `encode_decodeCommand` for a command word, `encode_of_decodeRecord` for a record. -/
theorem encodeOfDecode : Obligations.EncodeOfDecode := by
  unfold Obligations.EncodeOfDecode
  exact ⟨encode_decodeCommand, fun _ _ _ => encode_of_decodeRecord⟩

/-- Every command is well formed: its operands have the width of their fields. -/
theorem wellFormed_decodeCommand (w : CommandWord) : wellFormed (decodeCommand w) = true := by
  obtain h | ⟨_, h⟩ | ⟨_, h⟩ | h | ⟨_, _, _, h⟩ | h | h | h := decodeCommand_cases w <;> rw [h] <;> rfl

/-- What a record decode answers is well formed (30_encoding.md R98, R99). -/
theorem wellFormed_of_decodeRecord {bytes rest : List Byte} {i : Instr} (h : decodeRecord bytes = .ok (i, rest)) :
    wellFormed i = true := by
  obtain ⟨r, g, b, -, rfl⟩ | ⟨r, g, b, a, -, rfl⟩ |
    ⟨b0, -, hFE, hFF, ⟨-, rfl⟩ | ⟨-, rfl⟩ | ⟨htag, rfl⟩⟩ | ⟨b0, b1, -, -, -, -, rfl⟩ := decodeRecord_cases h
  · rfl
  · rfl
  · rfl
  · have hfield (f : BitVec 2) : inRange (unbiasField 2 f) (-2) 1 = true := inRange_unbiasField 2 f
    simp only [wellFormed, hfield, Bool.and_self]
  · have hlt := runField_lt htag hFE hFF
    exact wellFormed_run_iff.mpr (by omega)
  · have hgreen (f : BitVec 6) : inRange (unbiasField 32 f) (-32) 31 = true := inRange_unbiasField 32 f
    have hpart (f : BitVec 4) : inRange (unbiasField 8 f) (-8) 7 = true := inRange_unbiasField 8 f
    simp only [wellFormed, hgreen, hpart, Bool.and_self]

/-- Settles O4: every command is well formed, and a decoded record is by `wellFormed_of_decodeRecord`. -/
theorem decodedIsWellFormed : Obligations.DecodedIsWellFormed := by
  unfold Obligations.DecodedIsWellFormed
  intro e i h
  cases e with
  | command w =>
    injection h with h
    subst h
    exact wellFormed_decodeCommand w
  | record bytes =>
    rw [decode] at h
    split at h
    · rename_i hdec
      injection h with h
      subst h
      exact wellFormed_of_decodeRecord hdec
    · cases h

/-- Settles O6: both words are decoded as the common word with its ignored bits 0 is. -/
theorem ignoredBitsHaveNoEffect : Obligations.IgnoredBitsHaveNoEffect := by
  unfold Obligations.IgnoredBitsHaveNoEffect
  intro w₁ w₂ hop hused
  have hdec : decodeCommand w₁ = decodeCommand w₂ :=
    calc decodeCommand w₁
      _ = decodeCommand (w₁ &&& commandUsedBits (commandOp w₁)) :=
        (decodeCommand_of_encode (encode_decodeCommand w₁)).symm
      _ = decodeCommand (w₂ &&& commandUsedBits (commandOp w₂)) := by rw [hused, hop]
      _ = decodeCommand w₂ := decodeCommand_of_encode (encode_decodeCommand w₂)
  refine ⟨hdec, fun s o later hform hheld hfault houtq => ?_⟩
  have haccept (w : CommandWord) : step { s with inputs := ⟨false, some w, o⟩ :: later } =
      exec (decodeCommand w) { s with inputs := later } :=
    (step_of_inputs_cons _ _ hform).trans (clockEdge_of_offer w o hheld (State.ready_iff.mpr ⟨hfault, houtq⟩))
  rw [haccept w₁, haccept w₂, hdec]

end Sys2Proof.Machine
end

section
/-! PROOF. The encodings and the block: the formatter emits the layouts of 30_encoding.md R92 to R97, a RUN byte is
never a tag (R95), the selector's preference shuts out three forms (R99), and the step runs the word it was given (R80)
and stops only where bytes are no record. -/

namespace Sys2Proof.Machine

/-! ### The bytes of the formatter -/

/-- The byte of a value that fits in `n` bits is its `n`-bit field, widened. -/
theorem byteOf_eq_setWidth (n : Nat) {v : Int} (h0 : 0 ≤ v) (h1 : v < 2 ^ n) :
    byteOf v = (BitVec.ofInt n v).setWidth 8 := by
  obtain ⟨k, rfl⟩ := Int.eq_ofNat_of_zero_le h0
  have hk : k < 2 ^ n := by exact_mod_cast h1
  rw [byteOf, BitVec.ofInt_natCast, BitVec.ofInt_natCast]
  apply BitVec.eq_of_toNat_eq
  rw [BitVec.toNat_setWidth, BitVec.toNat_ofNat, BitVec.toNat_ofNat, Nat.mod_eq_of_lt hk]

/-- INDEX: the slot under the tag 00 (30_encoding.md R92). -/
theorem formatIndex_layout (slot : Slot) : formatIndex slot = [0#2 ++ slot] := by
  have hbyte : ∀ x : BitVec 6, byteOf x.toNat = 0#2 ++ x := by decide
  rw [formatIndex, hbyte]

/-- DIFF: three biased fields under the tag 01 (30_encoding.md R93). -/
theorem formatDiff_layout {dr dg db : Int} (h : wellFormed (.diff dr dg db) = true) :
    formatDiff dr dg db = [1#2 ++ biasField 2 2 dr ++ biasField 2 2 dg ++ biasField 2 2 db] := by
  have hbyte : ∀ x y z : BitVec 2,
      0x40#8 ||| x.setWidth 8 <<< 4 ||| y.setWidth 8 <<< 2 ||| z.setWidth 8 = 1#2 ++ x ++ y ++ z := by decide
  rw [wellFormed_diff_iff] at h
  rw [formatDiff, byteOf_eq_setWidth 2 (by omega) (by omega), byteOf_eq_setWidth 2 (by omega) (by omega),
    byteOf_eq_setWidth 2 (by omega) (by omega), hbyte]
  rfl

/-- LUMA: the biased green delta under the tag 10, then the two biased differences (30_encoding.md R94). -/
theorem formatLuma_layout {dg drg dbg : Int} (h : wellFormed (.luma dg drg dbg) = true) :
    formatLuma dg drg dbg = [2#2 ++ biasField 6 32 dg, biasField 4 8 drg ++ biasField 4 8 dbg] := by
  have hfirst : ∀ x : BitVec 6, 0x80#8 ||| x.setWidth 8 = 2#2 ++ x := by decide
  have hsecond : ∀ x y : BitVec 4, x.setWidth 8 <<< 4 ||| y.setWidth 8 = x ++ y := by decide
  rw [wellFormed_luma_iff] at h
  rw [formatLuma, byteOf_eq_setWidth 6 (by omega) (by omega), byteOf_eq_setWidth 4 (by omega) (by omega),
    byteOf_eq_setWidth 4 (by omega) (by omega), hfirst, hsecond]
  rfl

/-- The RUN byte by exact arithmetic and by natural numbers (42_formatter.md R173). -/
theorem formatRun_of_pos {n : Nat} (h : 1 ≤ n) : formatRun n = [0xC0#8 ||| BitVec.ofNat 8 (n - 1)] := by
  rw [formatRun, byteOf, ← Int.natCast_pred_of_pos h, BitVec.ofInt_natCast]

/-- RUN: the length less one under the tag 11 (30_encoding.md R95). -/
theorem formatRun_layout {n : Nat} (h : wellFormed (.run n) = true) :
    formatRun n = [3#2 ++ BitVec.ofNat 6 (n - 1)] := by
  have hbyte : ∀ x : BitVec 6, 0xC0#8 ||| x.setWidth 8 = 3#2 ++ x := by decide
  obtain ⟨h1, h62⟩ := wellFormed_run_iff.mp h
  rw [formatRun, byteOf_eq_setWidth 6 (by omega) (by omega), hbyte, ← Int.natCast_pred_of_pos h1,
    BitVec.ofInt_natCast]

/-- Settles O47: the layout of each record, as an equation of the formatter. -/
theorem recordsEmitTheirLayout : Obligations.RecordsEmitTheirLayout := by
  unfold Obligations.RecordsEmitTheirLayout
  intro i bytes s hwf henc
  cases i <;> cases henc
  case index slot => rw [← formatIndex_layout]; rfl
  case diff => rw [← formatDiff_layout hwf]; rfl
  case luma => rw [← formatLuma_layout hwf]; rfl
  case run => rw [← formatRun_layout hwf]; rfl
  case rgb | rgba => rfl

/-! ### The byte of RUN -/

/-- The byte of RUN `n` is `0xC0 + (n - 1)` (30_encoding.md R95). -/
theorem formatRun_byte {n : Nat} (h1 : 1 ≤ n) (h62 : n ≤ 62) :
    ∃ b : Byte, formatRun n = [b] ∧ b.toNat = 0xC0 + (n - 1) := by
  refine ⟨_, formatRun_layout (wellFormed_run_iff.mpr ⟨h1, h62⟩), ?_⟩
  rw [runByte_toNat, BitVec.toNat_ofNat, Nat.mod_eq_of_lt (by omega)]

/-- The flush of a run of at most 61 is one byte in `C0`..`FC` (30_encoding.md R95, 41_encode_pixel.md R150). -/
theorem flushBytes_byte {run : BitVec 6} (hrun : run ≠ 0#6) (hle : run.toNat ≤ 61) :
    ∃ b : Byte, flushBytes run = [b] ∧ 0xC0 ≤ b.toNat ∧ b.toNat ≤ 0xFC := by
  have hpos : run.toNat ≠ 0 := fun h => hrun (BitVec.eq_of_toNat_eq h)
  obtain ⟨b, hb, hval⟩ := formatRun_byte (n := run.toNat) (by omega) (by omega)
  exact ⟨b, (if_neg hrun).trans hb, by omega, by omega⟩

/-- What waits once a pending run is flushed. -/
theorem flushedOutq_eq (s : State) : s.flushedOutq = s.outq ++ flushBytes s.run := by
  unfold State.flushedOutq flushBytes
  split
  · rw [List.append_nil]
  · rename_i hrun
    have hpos : s.run.toNat ≠ 0 := fun h => hrun (BitVec.eq_of_toNat_eq h)
    rw [formatRun_of_pos (by omega)]

/-! ### PIXEL in phase Active -/

/-- What a near pixel emits: `FD` at the cap, else nothing (41_encode_pixel.md R138, R146). -/
theorem continueRun_outq (s : State) :
    (continueRun s).outq = s.outq ++ if s.run.toNat = 61 then [0xFD#8] else [] := by
  obtain ⟨hcap, e⟩ | ⟨hcap, e⟩ := continueRun_cases s
  · rw [e, formatRun_cap, if_pos (by omega)]
  · rw [e, if_neg (by omega), List.append_nil]

section Pixel

variable {px : Pixel} {s : State}

/-- A pixel that is not near is coded by the record the selector chooses (41_encode_pixel.md R135). -/
theorem encodePixel_of_not_near (hn : near px s.prev s.thr = false) :
    encodePixel px s = codePixel px (select px s.prev s.thr (s.cacheRead (pixelHash px))) s := by
  obtain ⟨hn', -⟩ | ⟨-, hc, e⟩ | ⟨-, hc, e⟩ := encodePixel_cases s px
  · simp [hn] at hn'
  · rw [e]
    simp [select, hn, hc]
  · rw [e]
    simp [select, hn, hc]

/-- What a pixel that is not near emits: the flush, then the chosen record (41_encode_pixel.md R146). -/
theorem encodePixel_outq_of_not_near (hn : near px s.prev s.thr = false) :
    (encodePixel px s).outq = s.flushedOutq ++
      choiceBytes px s.prev (select px s.prev s.thr (s.cacheRead (pixelHash px))) := by
  rw [encodePixel_of_not_near hn, codePixel_frame, flushedOutq_eq]

end Pixel

/-- Settles O48: `formatRun_byte` for RUN, `flushBytes_byte` for the two flushes, `continueRun_outq` for the cap. -/
theorem runFieldIsNeverATag : Obligations.RunFieldIsNeverATag := by
  unfold Obligations.RunFieldIsNeverATag
  refine ⟨fun n s h1 h62 => ?run, fun s hp hrun hle => ?finalize, fun px s hp hrun hle hn => ?pixel,
    fun px s hp hcap hn => ?cap⟩
  case run =>
    obtain ⟨b, hb, hval⟩ := formatRun_byte h1 h62
    exact ⟨b, by rw [← hb]; rfl, hval, by omega, by omega⟩
  case finalize =>
    obtain ⟨b, hb, hlo, hhi⟩ := flushBytes_byte hrun hle
    refine ⟨b, _, execFinalize_of_active s hp, ?_, hlo, hhi⟩
    rw [State.setPhase_outq, flushRun_outq, hb]
  case pixel =>
    obtain ⟨b, hb, hlo, hhi⟩ := flushBytes_byte hrun hle
    have hout := encodePixel_outq_of_not_near hn
    rw [flushedOutq_eq, hb, List.append_assoc, List.singleton_append] at hout
    exact ⟨b, _, _, execPixel_of_active s px hp, hout, hlo, hhi⟩
  case cap => exact ⟨_, exec_pixel_of_near hp hn, by rw [continueRun_outq, if_pos hcap]⟩

/-! ### The forms the selector never prefers -/

/-- Unchanged alpha and no delta: the pixel is near at every threshold (41_encode_pixel.md R130). -/
theorem near_of_deltas_zero {px prev : Pixel} (thr : Byte) (ha : px.a = prev.a) (hr : deltaR px prev = 0)
    (hg : deltaG px prev = 0) (hb : deltaB px prev = 0) : near px prev thr = true := by
  rw [deltaR] at hr
  rw [deltaG] at hg
  rw [deltaB] at hb
  simp [near, withinThreshold, ha, hr, hg, hb]

/-- The records the block never emits (30_encoding.md R99): DIFF 0,0,0 and every LUMA whose deltas fit DIFF, LUMA 0,0,0
among them. -/
def NeverSent (i : Instr) : Prop :=
  i = .diff 0 0 0 ∨ ∃ dr dg db, wellFormed (.diff dr dg db) = true ∧ i = .luma dg (dr - dg) (db - dg)

theorem neverSent_diff : NeverSent (.diff 0 0 0) := .inl rfl

theorem neverSent_luma : NeverSent (.luma 0 0 0) := .inr ⟨0, 0, 0, rfl, rfl⟩

section Selector

variable {px prev slot : Pixel} {thr : Byte}

/-- DIFF is never chosen with all deltas 0: such a pixel is near (41_encode_pixel.md R137). -/
theorem deltas_ne_zero_of_select_diff (h : select px prev thr slot = .diff) :
    ¬ (deltaR px prev = 0 ∧ deltaG px prev = 0 ∧ deltaB px prev = 0) := by
  rintro ⟨hr, hg, hb⟩
  obtain ⟨hcontinue, hdiff, -⟩ := select_spec px prev slot thr
  have hnear : near px prev thr = true := near_of_deltas_zero thr (hdiff h).1 hr hg hb
  simp [hcontinue.mpr hnear] at h

/-- LUMA is never chosen where DIFF would do: DIFF comes first (41_encode_pixel.md R143). -/
theorem not_wellFormed_diff_of_select_luma (h : select px prev thr slot = .luma) :
    wellFormed (.diff (deltaR px prev) (deltaG px prev) (deltaB px prev)) ≠ true := by
  obtain ⟨-, -, hluma⟩ := select_spec px prev slot thr
  obtain ⟨-, hdiff, -⟩ := hluma h
  exact Bool.eq_false_iff.mp hdiff

/-- The bytes of a chosen record decode to a record that is none of the forms never sent. -/
theorem decodeRecord_choiceBytes (hn : near px prev thr = false) :
    ∃ i, decodeRecord (choiceBytes px prev (select px prev thr slot)) = .ok (i, []) ∧ ¬ NeverSent i := by
  obtain ⟨hcontinue, hdiff, hluma⟩ := select_spec px prev slot thr
  cases h : select px prev thr slot with
  | continueRun => simp [hcontinue.mp h] at hn
  | index => exact ⟨.index (pixelHash px), by rw [choiceBytes, formatIndex_layout, decodeRecord_index_byte],
      by simp [NeverSent]⟩
  | diff =>
    have hwf : wellFormed (.diff (deltaR px prev) (deltaG px prev) (deltaB px prev)) = true := (hdiff h).2
    refine ⟨_, by rw [choiceBytes, formatDiff_layout hwf, decodeRecord_diff_byte _ hwf], ?_⟩
    simpa [NeverSent] using deltas_ne_zero_of_select_diff h
  | luma =>
    obtain ⟨-, -, hwf⟩ := hluma h
    have hwf : wellFormed (.luma (deltaG px prev) (deltaRG px prev) (deltaBG px prev)) = true := hwf
    refine ⟨_, by rw [choiceBytes, formatLuma_layout hwf, decodeRecord_luma_bytes _ hwf], ?_⟩
    rintro (e | ⟨dr, dg, db, hfit, e⟩)
    · cases e
    · injection e with hg hrg hbg
      have hr : dr = deltaR px prev := by rw [deltaRG] at hrg; omega
      have hb : db = deltaB px prev := by rw [deltaBG] at hbg; omega
      exact not_wellFormed_diff_of_select_luma h (by rw [← hr, hg, ← hb]; exact hfit)
  | rgb => exact ⟨_, decodeRecord_rgb [] px.r px.g px.b, by simp [NeverSent]⟩
  | rgba => exact ⟨_, decodeRecord_rgba [] px.r px.g px.b px.a, by simp [NeverSent]⟩

end Selector

/-- Bytes that decode to a record the block may send are not those of a record it never sends, nor do they decode to
one. -/
theorem bytes_ne_of_not_neverSent {bytes : List Byte} {i : Instr} (hdec : decodeRecord bytes = .ok (i, []))
    (hsent : ¬ NeverSent i) :
    bytes ≠ [0x6A#8] ∧ bytes ≠ [0xA0#8, 0x88#8] ∧ ∀ j, NeverSent j → decodeRecord bytes ≠ .ok (j, []) := by
  have hnot (j : Instr) (hj : NeverSent j) : decodeRecord bytes ≠ .ok (j, []) := by
    rw [hdec]
    rintro ⟨⟩
    exact hsent hj
  refine ⟨?diff, ?luma, hnot⟩
  case diff =>
    rintro rfl
    exact hnot (.diff 0 0 0) neverSent_diff rfl
  case luma =>
    rintro rfl
    exact hnot (.luma 0 0 0) neverSent_luma rfl

/-- Settles O42: a pixel without deltas is near, the selector's order shuts the other forms out
(`decodeRecord_choiceBytes`), and a near pixel's byte is the cap's. -/
theorem zeroDeltasAreNeverSent : Obligations.ZeroDeltasAreNeverSent := by
  unfold Obligations.ZeroDeltasAreNeverSent
  refine ⟨fun px prev thr hn ha => ?deltas, fun px prev slot thr => ?selector, fun px s hp => ?sent⟩
  case deltas =>
    rintro ⟨hr, hg, hb⟩
    have hnear : near px prev thr = true := near_of_deltas_zero thr ha (by simp [deltaR, channelDelta, hr])
      (by simp [deltaG, channelDelta, hg]) (by simp [deltaB, channelDelta, hb])
    simp [hn] at hnear
  case selector =>
    refine ⟨deltas_ne_zero_of_select_diff, fun h => ?_⟩
    simpa only [ne_eq, wellFormed_diff_iff, and_assoc] using not_wellFormed_diff_of_select_luma h
  case sent =>
    cases hn : near px s.prev s.thr with
    | true =>
      refine ⟨_, _, exec_pixel_of_near hp hn, fun _ => ⟨continueRun_outq s, ?_⟩, by simp⟩
      split <;> simp
    | false =>
      obtain ⟨i, hdec, hsent⟩ := decodeRecord_choiceBytes (slot := s.cacheRead (pixelHash px)) hn
      refine ⟨_, _, execPixel_of_active s px hp, by simp, fun _ => ⟨encodePixel_outq_of_not_near hn, ?_⟩⟩
      obtain ⟨hdiff, hluma, hnot⟩ := bytes_ne_of_not_neverSent hdec hsent
      exact ⟨hdiff, hluma, hnot _ neverSent_diff, hnot _ neverSent_luma,
        fun dr dg db hr hr' hg hg' hb hb' => hnot _ (.inr ⟨dr, dg, db, wellFormed_diff_iff.mpr
          ⟨⟨hr, hr'⟩, ⟨hg, hg'⟩, hb, hb'⟩, rfl⟩)⟩

/-! ### The step -/

/-- A meaning never stops with a fault of the model. -/
theorem exec_ne_fault (i : Instr) (s : State) (r : Fault) : exec i s ≠ .fault r := by
  obtain ⟨t, h, -⟩ := exec_appends i s
  simp [h]

/-- A clock edge never stops with a fault of the model. -/
theorem clockEdge_ne_fault (p : Pins) (s : State) (r : Fault) : clockEdge p s ≠ .fault r := by
  unfold clockEdge commandEdge
  split_ifs
  · simp
  · simp
  · cases p.cmd with
    | none => simp
    | some w => exact exec_ne_fault _ _ r
  · simp

/-- Settles O14: neither a clock edge nor a meaning faults, so the fault is the formatter's. -/
theorem stepStopsOnlyOnUndecodable : Obligations.StepStopsOnlyOnUndecodable := by
  unfold Obligations.StepStopsOnlyOnUndecodable
  intro s r h
  rw [step, blockStep] at h
  split at h
  · exact absurd h (clockEdge_ne_fault _ _ r)
  · rename_i bytes hform
    split at h
    · rw [formatterStep] at h
      split at h
      · exact absurd h (exec_ne_fault _ _ r)
      · rename_i e hdec
        injection h with h
        exact ⟨bytes, e, hform, hdec, h.symm⟩
    · exact absurd h (clockEdge_ne_fault _ _ r)

/-- A ready block runs the record at the formatter's input (log entry 8). -/
theorem step_of_record {s : State} {bytes rest : List Byte} {i : Instr} (hform : s.formatterIn = some bytes)
    (hdec : decodeRecord bytes = .ok (i, rest)) (hready : s.ready = true) : step s = exec i s.clearFormatterIn := by
  simp [step, blockStep, formatterStep, hform, hdec, hready]

/-- An opcode-table word names an instruction as a record or as a command word, by its length (log entry 22). -/
theorem decodeTableWord_cases {nbits w : Nat} {i : Instr} (h : decodeTableWord nbits w = some i) :
    (isRecordRow nbits = true ∧ ∃ rest, decodeRecord (tableBytes nbits w) = .ok (i, rest)) ∨
    (isRecordRow nbits = false ∧ decodeCommand (tableCommand nbits w) = i) := by
  cases hrow : isRecordRow nbits with
  | true =>
    cases hdec : decodeRecord (tableBytes nbits w) with
    | error e => simp [decodeTableWord, tableEncoded, hrow, decode, hdec] at h
    | ok answer =>
      obtain rfl : answer.1 = i := by simpa [decodeTableWord, tableEncoded, hrow, decode, hdec] using h
      exact .inl ⟨rfl, answer.2, rfl⟩
  | false => exact .inr ⟨rfl, by simpa [decodeTableWord, tableEncoded, hrow, decode] using h⟩

/-- Settles O10: a record row stands at the formatter's input (`step_of_record`), a command row is offered at the next
edge (`clockEdge_of_offer`); the block is ready for either. -/
theorem fetchedWordRuns : Obligations.FetchedWordRuns := by
  unfold Obligations.FetchedWordRuns
  intro s nbits w i h
  rw [State.withFetchWord, placeInstr]
  obtain ⟨hrow, rest, hdec⟩ | ⟨hrow, rfl⟩ := decodeTableWord_cases h
  · rw [if_pos hrow]
    exact step_of_record rfl hdec rfl
  · rw [if_neg (by simp [hrow])]
    exact (step_of_inputs_cons _ _ rfl).trans (clockEdge_of_offer _ _ rfl rfl)

end Sys2Proof.Machine
end

section
/-! PROOF. The session commands (40_session.md): INIT starts a session (R111), FINALIZE flushes the pending run and ends
the pixel phase (R113) once (R115), and the phase moves as the lifecycle table says (R110). -/

namespace Sys2Proof.Machine

/-! ### INIT -/

/-- Settles O26: `exec_init_fields` with the fields INIT keeps left in place. -/
theorem initStartsSession : Obligations.InitStartsSession := by
  unfold Obligations.InitStartsSession
  exact exec_init_fields

/-! ### FINALIZE, phase by phase -/

section Finalize

variable {s t : State}

theorem exec_finalize_of_unconfigured (hp : s.phase = .unconfigured) :
    exec .finalize s = .next (s.raiseFault .notInitialised) :=
  execFinalize_of_unconfigured s hp

theorem exec_finalize_of_active (hp : s.phase = .active) :
    exec .finalize s = .next ((flushRun s).setPhase .finalized) :=
  execFinalize_of_active s hp

theorem exec_finalize_of_finalized (hp : s.phase = .finalized) : exec .finalize s = .next s :=
  execFinalize_of_finalized s hp

/-- A pending run goes out as the byte `0xC0 | (run - 1)` (40_session.md R113). -/
theorem flushRun_of_pending_byte (hrun : s.run ≠ 0#6) :
    flushRun s = (s.emit [0xC0#8 ||| BitVec.ofNat 8 (s.run.toNat - 1)]).setRun 0#6 := by
  have hpos : s.run.toNat ≠ 0 := fun h => hrun (BitVec.eq_of_toNat_eq h)
  rw [flushRun_of_pending s hrun, formatRun_of_pos (by omega)]

/-- In a session FINALIZE leaves phase Finalized and raises no fault (40_session.md R110). -/
theorem exec_finalize_in_session (hp : s.phase ≠ .unconfigured) (h : exec .finalize s = .next t) :
    t.phase = .finalized ∧ t.fault = s.fault := by
  obtain hp' | hp' | hp' := phase_cases s.phase
  · exact absurd hp' hp
  · obtain rfl := exec_next_unique h (exec_finalize_of_active hp')
    simp
  · obtain rfl := exec_next_unique h (exec_finalize_of_finalized hp')
    exact ⟨hp', rfl⟩

end Finalize

/-- Settles O28, phase by phase; in Active by whether a run is pending. -/
theorem finalizeFlushesRun : Obligations.FinalizeFlushesRun := by
  unfold Obligations.FinalizeFlushesRun
  intro s
  refine ⟨exec_finalize_of_unconfigured, fun hp hrun => ?idle, fun hp hrun => ?pending, exec_finalize_of_finalized⟩
  case idle =>
    rw [exec_finalize_of_active hp, flushRun_of_idle s hrun]
    rfl
  case pending =>
    rw [exec_finalize_of_active hp, flushRun_of_pending_byte hrun]
    rfl

/-- Settles O29: the first FINALIZE left phase Finalized, in which FINALIZE changes nothing. -/
theorem secondFinalizeIsNoOp : Obligations.SecondFinalizeIsNoOp := by
  unfold Obligations.SecondFinalizeIsNoOp
  intro s t hp h
  obtain ⟨hfinal, -⟩ := exec_finalize_in_session hp h
  exact exec_finalize_of_finalized hfinal

/-! ### The lifecycle table -/

/-- Only INIT and FINALIZE move the phase (40_session.md R110), by `registerWriters`. -/
theorem exec_phase_of_ne_init_of_ne_finalize {i : Instr} {s t : State} (h : exec i s = .next t)
    (hinit : ∀ x, i ≠ .init x) (hfinalize : i ≠ .finalize) : t.phase = s.phase := by
  obtain ⟨-, -, -, hphase⟩ := registerWriters i s t h
  by_contra hne
  obtain ⟨x, rfl⟩ | rfl := hphase hne
  · exact hinit x rfl
  · exact hfinalize rfl

/-- PIXEL in phase Active raises no fault and clears none (40_session.md R110). -/
@[simp] theorem encodePixel_fault (px : Pixel) (s : State) : (encodePixel px s).fault = s.fault := by
  obtain ⟨-, -, e⟩ | ⟨-, -, e⟩ | ⟨-, -, e⟩ | ⟨-, -, e⟩ := encodePixel_result s px <;> rw [e]

/-- Settles O30, command by command: PIXEL faults outside Active, FINALIZE in Unconfigured, and only INIT and FINALIZE
move the phase. -/
theorem phasesFollowLifecycle : Obligations.PhasesFollowLifecycle := by
  unfold Obligations.PhasesFollowLifecycle
  intro s t
  refine ⟨fun x h => ?init, fun px h => ⟨?pixelPhase, fun hp => ?pixelUnconfigured, fun hp => ?pixelFinalized,
    fun hp => ?pixelActive⟩, fun h => ⟨fun hp => ?finalizeUnconfigured, (exec_finalize_in_session · h)⟩,
    fun w hh c h => ?header, fun h => ?footer⟩
  case init => rw [exec_next_unique h (initStartsSession x s)]
  case pixelPhase | header | footer => exact exec_phase_of_ne_init_of_ne_finalize h (by simp) (by simp)
  case pixelUnconfigured =>
    obtain rfl := exec_next_unique h (execPixel_of_unconfigured s px hp)
    exact ⟨rfl, rfl⟩
  case pixelFinalized =>
    obtain rfl := exec_next_unique h (execPixel_of_finalized s px hp)
    exact ⟨rfl, rfl⟩
  case pixelActive =>
    obtain rfl := exec_next_unique h (execPixel_of_active s px hp)
    exact encodePixel_fault px s
  case finalizeUnconfigured =>
    obtain rfl := exec_next_unique h (exec_finalize_of_unconfigured hp)
    exact ⟨hp, rfl, rfl⟩

end Sys2Proof.Machine
end

section
/-! PROOF. What every step keeps (41_encode_pixel.md R150, R151; 60_exceptions.md R220, R221; 10_state.md R40).  Each
clause of the invariant is kept by every meaning, and what a step does beside a meaning is a reset or touches no more
than the environment and the bytes that wait. -/

namespace Sys2Proof.Machine

/-! ### A step is a reset, a meaning, or leaves the block alone -/

/-- `t` is the block of `s`, except that the sink may have taken bytes from the front of `outq`. -/
def SameButTransferred (t s : State) : Prop :=
  SameEncoder t s ∧ t.fault = s.fault ∧ t.faultCode = s.faultCode ∧ t.outq <:+ s.outq

theorem outputEdge_sameButTransferred (p : Pins) (s : State) : SameButTransferred (outputEdge p s) s := by
  obtain e | ⟨b, bs, hq, e⟩ := outputEdge_cases p s <;> rw [e]
  · exact ⟨⟨rfl, rfl, rfl, rfl, rfl⟩, rfl, rfl, List.suffix_rfl⟩
  · exact ⟨⟨rfl, rfl, rfl, rfl, rfl⟩, rfl, rfl, hq ▸ List.suffix_cons b bs⟩

/-- What a step does to the block: it resets it, runs a meaning on it while it is ready, or leaves it alone. -/
theorem step_block_cases {s t : State} (h : step s = .next t) :
    (∃ u, t = State.resetBlock u) ∨
    (∃ i u, SameButTransferred u s ∧ u.fault = false ∧ u.outq = [] ∧ exec i u = .next t) ∨
    SameButTransferred t s := by
  have halone : SameButTransferred s s := ⟨⟨rfl, rfl, rfl, rfl, rfl⟩, rfl, rfl, List.suffix_rfl⟩
  obtain ⟨-, hedge⟩ | ⟨_, i, _, -, hready, -, hexec⟩ := step_cases h
  · obtain ⟨-, ⟨-, rfl⟩ | ⟨-, -, -, rfl⟩ | ⟨-, hready, w, -, hexec⟩ | ⟨-, -, rfl⟩⟩ := clockEdge_cases hedge
    · exact .inl ⟨_, rfl⟩
    · exact .inr (.inr halone)
    · obtain ⟨hf, hq⟩ := State.ready_iff.mp hready
      exact .inr (.inl ⟨_, s.advance.setHeld none, halone, hf, hq, hexec⟩)
    · exact .inr (.inr (outputEdge_sameButTransferred s.pinsNow (s.advance.setHeld s.pinsNow.cmd)))
  · obtain ⟨hf, hq⟩ := State.ready_iff.mp hready
    exact .inr (.inl ⟨i, s.clearFormatterIn, halone, hf, hq, hexec⟩)

/-- The induction step of every invariant of the block: it holds after a reset, every meaning keeps it on a ready block,
and the transfer of bytes keeps it. -/
theorem step_keeps {P : State → Prop} (hreset : ∀ u : State, P u.resetBlock)
    (hexec : ∀ {i : Instr} {u t : State}, u.fault = false → u.outq = [] → P u → exec i u = .next t → P t)
    (htransfer : ∀ {s t : State}, SameButTransferred t s → P s → P t)
    {s t : State} (hs : P s) (h : step s = .next t) : P t := by
  obtain ⟨u, rfl⟩ | ⟨i, u, hsame, hf, hq, hmeaning⟩ | hsame := step_block_cases h
  · exact hreset u
  · exact hexec hf hq (htransfer hsame hs) hmeaning
  · exact htransfer hsame hs

/-! ### The encoder state under a meaning -/

/-- Only INIT, and PIXEL and FINALIZE in phase Active, touch the encoder state. -/
theorem exec_encoder_cases {i : Instr} {s t : State} (h : exec i s = .next t) :
    (∃ x, i = .init x ∧ t = ((((s.setPrev initialPixel).setRun 0#6).cacheClear).setThr x).setPhase .active) ∨
    (∃ px, i = .pixel px ∧ s.phase = .active ∧ t = encodePixel px s) ∨
    (i = .finalize ∧ s.phase = .active ∧ t = (flushRun s).setPhase .finalized) ∨
    SameEncoder t s := by
  obtain hinit | hpixel | ⟨_, -, -, rfl⟩ | ⟨_, -, -, rfl⟩ | ⟨-, -, rfl⟩ | hfinalize | ⟨-, -, rfl⟩ |
    ⟨_, _, _, -, -, -, rfl⟩ | ⟨-, rfl⟩ | ⟨_, rfl, -⟩ := exec_cases h
  case inl => exact .inl hinit
  case inr.inl => exact .inr (.inl hpixel)
  case inr.inr.inr.inr.inr.inl => exact .inr (.inr (.inl hfinalize))
  all_goals exact .inr (.inr (.inr ⟨rfl, rfl, rfl, rfl, rfl⟩))

@[simp] theorem encodePixel_faultCode (px : Pixel) (s : State) : (encodePixel px s).faultCode = s.faultCode := by
  obtain ⟨-, -, e⟩ | ⟨-, -, e⟩ | ⟨-, -, e⟩ | ⟨-, -, e⟩ := encodePixel_result s px <;> rw [e]

/-- A meaning leaves the fault status alone, or raises a fault and does nothing else (60_exceptions.md R221). -/
theorem exec_status_cases {i : Instr} {s t : State} (h : exec i s = .next t) :
    (t.fault = s.fault ∧ t.faultCode = s.faultCode) ∨ ∃ c, t = s.raiseFault c := by
  obtain ⟨_, -, rfl⟩ | ⟨px, -, -, rfl⟩ | ⟨_, -, -, rfl⟩ | ⟨_, -, -, rfl⟩ | ⟨-, -, rfl⟩ | ⟨-, -, rfl⟩ | ⟨-, -, rfl⟩ |
    ⟨_, _, _, -, -, -, rfl⟩ | ⟨-, rfl⟩ | ⟨_, rfl, -⟩ := exec_cases h
  · exact .inl ⟨rfl, rfl⟩
  · exact .inl ⟨encodePixel_fault px s, encodePixel_faultCode px s⟩
  · exact .inr ⟨_, rfl⟩
  · exact .inr ⟨_, rfl⟩
  · exact .inr ⟨_, rfl⟩
  · exact .inl ⟨flushRun_fault s, flushRun_faultCode s⟩
  · exact .inl ⟨rfl, rfl⟩
  · exact .inr ⟨_, rfl⟩
  · exact .inr ⟨_, rfl⟩
  · exact .inl ⟨rfl, rfl⟩

/-! ### PIXEL on the encoder registers -/

section Pixel

variable {px : Pixel} {s : State}

/-- A near pixel goes to the run accumulator (41_encode_pixel.md R137). -/
theorem encodePixel_of_near (hn : near px s.prev s.thr = true) : encodePixel px s = continueRun s := by
  simp [encodePixel, select, hn]

/-- The run accumulator touches neither `prev` nor the cache (41_encode_pixel.md R137). -/
theorem continueRun_anchor (s : State) : (continueRun s).prev = s.prev ∧ (continueRun s).cache = s.cache := by
  obtain ⟨-, e⟩ | ⟨-, e⟩ := continueRun_cases s <;> simp [e]

/-- A near pixel keeps the anchor and the cache (10_state.md R33, 41_encode_pixel.md R137). -/
theorem encodePixel_anchor_of_near (hn : near px s.prev s.thr = true) :
    (encodePixel px s).prev = s.prev ∧ (encodePixel px s).cache = s.cache := by
  rw [encodePixel_of_near hn]
  exact continueRun_anchor s

/-- The pending count after one more near pixel, from a count a session shows: one more, or 0 on reaching 62
(41_encode_pixel.md R138, R150). -/
theorem continueRun_run (hle : s.run.toNat ≤ 61) :
    (continueRun s).run.toNat = if s.run.toNat = 61 then 0 else s.run.toNat + 1 := by
  obtain ⟨hcap, e⟩ | ⟨hcap, e⟩ := continueRun_cases s <;> rw [e]
  · rw [if_pos (by omega)]
    rfl
  · rw [if_neg (by omega)]
    exact Nat.mod_eq_of_lt (by omega)

/-- A pixel that is not near leaves no run pending (41_encode_pixel.md R139). -/
theorem encodePixel_run_of_not_near (hn : near px s.prev s.thr = false) : (encodePixel px s).run = 0#6 := by
  rw [encodePixel_of_not_near hn, codePixel_frame]

/-- In a session PIXEL keeps the count at most 61 (41_encode_pixel.md R150). -/
theorem encodePixel_run_le (hle : s.run.toNat ≤ 61) : (encodePixel px s).run.toNat ≤ 61 := by
  cases hn : near px s.prev s.thr with
  | true =>
    rw [encodePixel_of_near hn, continueRun_run hle]
    split <;> omega
  | false => simp [encodePixel_run_of_not_near hn]

/-- A pixel that is not near becomes `prev`, and its slot holds it: a hit found it there, a miss wrote it
(41_encode_pixel.md R145, R151). -/
theorem encodePixel_anchor_of_not_near (hn : near px s.prev s.thr = false) :
    (encodePixel px s).prev = px ∧ (encodePixel px s).AnchorCached := by
  obtain ⟨hn', -⟩ | ⟨hn', -⟩ | ⟨-, hc, e⟩ | ⟨-, -, e⟩ := encodePixel_result s px
  · simp [hn] at hn'
  · simp [hn] at hn'
  · rw [e]
    exact ⟨rfl, hc⟩
  · rw [e]
    exact ⟨rfl, State.cacheRead_cacheWrite_same s _ px⟩

end Pixel

/-! ### Each clause of the invariant -/

section Clauses

variable {i : Instr} {s t : State}

/-! A clause about the encoder state alone carries over to a block with the same one. -/

theorem State.RunBounded.congr (hs : s.RunBounded) (h : SameEncoder t s) : t.RunBounded := by
  obtain ⟨-, hrun, -, -, hphase⟩ := h
  simpa [State.RunBounded, hrun, hphase] using hs

theorem State.FinalizedIdle.congr (hs : s.FinalizedIdle) (h : SameEncoder t s) : t.FinalizedIdle := by
  obtain ⟨-, hrun, -, -, hphase⟩ := h
  simpa [State.FinalizedIdle, hrun, hphase] using hs

theorem State.CacheHashed.congr (hs : s.CacheHashed) (h : SameEncoder t s) : t.CacheHashed := by
  obtain ⟨-, -, hcache, -, hphase⟩ := h
  simpa [State.CacheHashed, State.cacheRead_congr hcache, hphase] using hs

theorem State.AnchorCached.congr (hs : s.AnchorCached) (hprev : t.prev = s.prev) (hcache : t.cache = s.cache) :
    t.AnchorCached := by
  rw [State.AnchorCached, State.cacheRead_congr hcache, hprev]
  exact hs

theorem State.AnchorKnown.congr (hs : s.AnchorKnown) (hprev : t.prev = s.prev) (hcache : t.cache = s.cache)
    (hphase : t.phase ≠ .unconfigured → s.phase ≠ .unconfigured) : t.AnchorKnown := fun hp =>
  (hs (hphase hp)).imp hprev.trans (·.congr hprev hcache)

theorem exec_keeps_runBounded (hs : s.RunBounded) (h : exec i s = .next t) : t.RunBounded := by
  obtain ⟨_, -, rfl⟩ | ⟨px, -, hp, rfl⟩ | ⟨-, -, rfl⟩ | hsame := exec_encoder_cases h
  · exact fun _ => Nat.zero_le 61
  · exact fun _ => encodePixel_run_le (hs (by simp [hp]))
  · exact fun _ => by simp
  · exact hs.congr hsame

theorem exec_keeps_finalizedIdle (hs : s.FinalizedIdle) (h : exec i s = .next t) : t.FinalizedIdle := by
  obtain ⟨_, -, rfl⟩ | ⟨px, -, hp, rfl⟩ | ⟨-, -, rfl⟩ | hsame := exec_encoder_cases h
  · exact fun _ => rfl
  · intro hfinal
    simp [hp] at hfinal
  · exact fun _ => by simp
  · exact hs.congr hsame

/-- INIT leaves the zero pixel in every slot (40_session.md R111). -/
theorem exec_init_cacheHashed {x : Byte} (h : exec (.init x) s = .next t) : t.CacheHashed := by
  obtain rfl := exec_next_unique h (exec_init_fields x s)
  exact fun _ j => .inl (State.cacheRead_cacheClear s j)

/-- PIXEL writes at most one slot, and there the pixel whose hash it is (41_encode_pixel.md R141, R151). -/
theorem encodePixel_keeps_cacheHashed (px : Pixel) (hp : s.phase = .active) (hs : s.CacheHashed) :
    (encodePixel px s).CacheHashed := by
  intro _ j
  have hslot := hs (by simp [hp]) j
  by_cases hkeep : near px s.prev s.thr = true ∨ s.cacheRead (pixelHash px) = px
  · rwa [State.cacheRead_congr (encodePixel_cache_of_near_or_hit hkeep)]
  · obtain ⟨hn, hc⟩ := not_or.mp hkeep
    rw [State.cacheRead_congr (encodePixel_cache_of_miss (Bool.eq_false_iff.mpr hn) hc), State.cacheRead_cacheWrite]
    split
    · exact .inr ‹_›
    · exact hslot

theorem exec_keeps_cacheHashed (hs : s.CacheHashed) (h : exec i s = .next t) : t.CacheHashed := by
  obtain ⟨x, rfl, -⟩ | ⟨px, -, hp, rfl⟩ | ⟨-, hp, rfl⟩ | hsame := exec_encoder_cases h
  · exact exec_init_cacheHashed h
  · exact encodePixel_keeps_cacheHashed px hp hs
  · exact fun _ j => by simpa using hs (by simp [hp]) j
  · exact hs.congr hsame

/-- Every instruction but INIT keeps the slot of `prev` (41_encode_pixel.md R151): whoever moves `prev` has the pixel in
its slot. -/
theorem exec_keeps_anchorCached (hinit : ∀ x, i ≠ .init x) (hs : s.AnchorCached) (h : exec i s = .next t) :
    t.AnchorCached := by
  obtain ⟨x, rfl, -⟩ | ⟨px, -, -, rfl⟩ | ⟨-, -, rfl⟩ | ⟨hprev, -, hcache, -⟩ := exec_encoder_cases h
  · exact absurd rfl (hinit x)
  · cases hn : near px s.prev s.thr with
    | true =>
      obtain ⟨hprev, hcache⟩ := encodePixel_anchor_of_near hn
      exact hs.congr hprev hcache
    | false => exact (encodePixel_anchor_of_not_near hn).2
  · exact hs.congr (by simp) (by simp)
  · exact hs.congr hprev hcache

theorem exec_keeps_anchorKnown (hs : s.AnchorKnown) (h : exec i s = .next t) : t.AnchorKnown := by
  obtain ⟨_, -, rfl⟩ | ⟨px, -, hp, rfl⟩ | ⟨-, hp, rfl⟩ | ⟨hprev, -, hcache, -, hphase⟩ := exec_encoder_cases h
  · exact fun _ => .inl rfl
  · cases hn : near px s.prev s.thr with
    | true =>
      obtain ⟨hprev, hcache⟩ := encodePixel_anchor_of_near hn
      exact hs.congr hprev hcache (by simp [hp])
    | false => exact fun _ => .inr (encodePixel_anchor_of_not_near hn).2
  · exact hs.congr (by simp) (by simp) (by simp [hp])
  · exact hs.congr hprev hcache (by simp [hphase])

theorem exec_keeps_faultCodeUsed (hs : s.FaultCodeUsed) (h : exec i s = .next t) : t.FaultCodeUsed := by
  have hcode : ∀ c, faultCauseCode c ≠ 0#3 ∧ (faultCauseCode c).toNat ≤ 4 := by
    intro c
    cases c <;> decide
  obtain ⟨hf, hc⟩ | ⟨c, rfl⟩ := exec_status_cases h
  · simpa [State.FaultCodeUsed, hf, hc] using hs
  · simpa [State.FaultCodeUsed] using hcode c

/-- A meaning that raises a fault emits nothing, so a ready block it faults has nothing to transfer
(60_exceptions.md R221). -/
theorem exec_faultQuiet (hf : s.fault = false) (hq : s.outq = []) (h : exec i s = .next t) : t.FaultQuiet := by
  intro hfault
  obtain ⟨hsame, -⟩ | ⟨c, rfl⟩ := exec_status_cases h
  · simp [hsame, hf] at hfault
  · exact hq

/-- One command's bytes fit (10_state.md R40). -/
theorem exec_outqBounded (hq : s.outq = []) (h : exec i s = .next t) : t.OutqBounded := by
  obtain ⟨u, hu, bytes, hout, hlen⟩ := exec_appends i s
  obtain rfl := exec_next_unique h hu
  rw [State.OutqBounded, hout, hq]
  exact hlen

theorem step_keeps_runBounded (hs : s.RunBounded) (h : step s = .next t) : t.RunBounded :=
  step_keeps (fun _ hp => absurd rfl hp) (fun _ _ => exec_keeps_runBounded) (fun hsame hs => hs.congr hsame.1) hs h

theorem step_keeps_finalizedIdle (hs : s.FinalizedIdle) (h : step s = .next t) : t.FinalizedIdle :=
  step_keeps (fun _ hp => nomatch hp) (fun _ _ => exec_keeps_finalizedIdle) (fun hsame hs => hs.congr hsame.1) hs h

theorem step_keeps_cacheHashed (hs : s.CacheHashed) (h : step s = .next t) : t.CacheHashed :=
  step_keeps (fun _ hp => absurd rfl hp) (fun _ _ => exec_keeps_cacheHashed) (fun hsame hs => hs.congr hsame.1) hs h

theorem step_keeps_anchorKnown (hs : s.AnchorKnown) (h : step s = .next t) : t.AnchorKnown :=
  step_keeps (fun _ hp => absurd rfl hp) (fun _ _ => exec_keeps_anchorKnown)
    (fun ⟨⟨hprev, _, hcache, _, hphase⟩, _⟩ hs => hs.congr hprev hcache (by simp [hphase])) hs h

theorem step_keeps_faultCodeUsed (hs : s.FaultCodeUsed) (h : step s = .next t) : t.FaultCodeUsed :=
  step_keeps (fun _ => by simp [State.FaultCodeUsed]) (fun _ _ => exec_keeps_faultCodeUsed)
    (fun ⟨_, hf, hc, _⟩ hs => by simpa [State.FaultCodeUsed, hf, hc] using hs) hs h

theorem step_keeps_faultQuiet (hs : s.FaultQuiet) (h : step s = .next t) : t.FaultQuiet :=
  step_keeps (fun _ _ => rfl) (fun hf hq _ => exec_faultQuiet hf hq)
    (fun ⟨_, hf, _, hout⟩ hs hfault => List.suffix_nil.mp (hs (hf ▸ hfault) ▸ hout)) hs h

theorem step_keeps_outqBounded (hs : s.OutqBounded) (h : step s = .next t) : t.OutqBounded :=
  step_keeps (fun _ => Nat.zero_le _) (fun _ hq _ => exec_outqBounded hq)
    (fun ⟨_, _, _, hout⟩ hs => hout.length_le.trans hs) hs h

end Clauses

/-- Settles O21, clause by clause: `step_keeps` with what every meaning does to the clause. -/
theorem stepKeepsInvariant : Obligations.StepKeepsInvariant := by
  unfold Obligations.StepKeepsInvariant
  intro s t ⟨hrun, hidle, hcode, hquiet, hout, hcache, hanchor⟩ h
  exact ⟨step_keeps_runBounded hrun h, step_keeps_finalizedIdle hidle h, step_keeps_faultCodeUsed hcode h,
    step_keeps_faultQuiet hquiet h, step_keeps_outqBounded hout h, step_keeps_cacheHashed hcache h,
    step_keeps_anchorKnown hanchor h⟩

/-- Settles O22: `step_keeps_runBounded`, and the count of the run accumulator below and at 61. -/
theorem runCountStaysBounded : Obligations.RunCountStaysBounded := by
  unfold Obligations.RunCountStaysBounded
  refine ⟨fun s t => step_keeps_runBounded, fun px s t hp hbound hn h => ?_⟩
  obtain rfl := exec_next_unique h (exec_pixel_of_near hp hn)
  rw [continueRun_run (hbound (by simp [hp]))]
  exact ⟨fun hcap => if_neg (by omega), fun hcap => if_pos (by omega)⟩

/-- Settles O23: INIT clears every slot, and a step writes a pixel only into the slot of its hash. -/
theorem slotsHoldTheirHash : Obligations.SlotsHoldTheirHash := by
  unfold Obligations.SlotsHoldTheirHash
  exact ⟨fun _ _ _ => exec_init_cacheHashed, fun _ _ => step_keeps_cacheHashed⟩

/-- Settles O24: `encodePixel_anchor_of_not_near`, and `exec_keeps_anchorCached` for every instruction but INIT. -/
theorem anchorStaysCached : Obligations.AnchorStaysCached := by
  unfold Obligations.AnchorStaysCached
  refine ⟨fun px s t hp hn h => ?_, fun _ _ _ => exec_keeps_anchorCached⟩
  obtain rfl := exec_next_unique h (execPixel_of_active s px hp)
  exact encodePixel_anchor_of_not_near hn

/-- Settles O20: at reset there is no session, no fault and no byte to transfer. -/
theorem resetHasInvariant : Obligations.ResetHasInvariant := by
  unfold Obligations.ResetHasInvariant
  exact
    { runBounded := fun hp => absurd rfl hp
      finalizedIdle := fun hp => nomatch hp
      faultCodeUsed := ⟨by decide, by decide⟩
      faultQuiet := fun hf => nomatch hf
      outqBounded := Nat.zero_le _
      cacheHashed := fun hp => absurd rfl hp
      anchorKnown := fun hp => absurd rfl hp }

end Sys2Proof.Machine
end

section
/-! PROOF. PIXEL (41_encode_pixel.md): the comparator, the hash and the range tests on exact integers (R130 to R134),
what a near pixel, a hit and a miss do (R137 to R145), what one PIXEL emits (R146) and the two modes (R152). -/

namespace Sys2Proof.Machine

/-! ### The comparator -/

theorem withinThreshold_iff {new old thr : Byte} :
    withinThreshold new old thr = true ↔ |(new.toNat : Int) - old.toNat| ≤ thr.toNat := by
  rw [withinThreshold, decide_eq_true_eq, channelDelta, Int.abs_eq_natAbs, Nat.cast_le]

/-- Settles O31: each channel by `withinThreshold_iff`. -/
theorem comparatorIsExact : Obligations.ComparatorIsExact := by
  unfold Obligations.ComparatorIsExact
  intro px prev thr
  simp only [near, Bool.and_eq_true, decide_eq_true_eq, withinThreshold_iff, and_assoc]

/-- Two bytes differ by at most 255, so a bound of 255 or more says nothing (41_encode_pixel.md R148). -/
theorem abs_byte_sub_le {larger : Int} (h : 255 ≤ larger) (x y : Byte) : |(x.toNat : Int) - y.toNat| ≤ larger := by
  have hx := x.isLt
  have hy := y.isLt
  rw [abs_le]
  omega

/-- Settles O32: a bound of 255 or more leaves only the alpha test (`abs_byte_sub_le`). -/
theorem thresholdSaturates : Obligations.ThresholdSaturates := by
  unfold Obligations.ThresholdSaturates
  intro px prev
  have halpha : near px prev 255#8 = true ↔ px.a = prev.a := by
    have h255 : (255 : Int) ≤ (255#8 : Byte).toNat := by decide
    simp only [comparatorIsExact px prev 255#8, abs_byte_sub_le h255, true_and]
  refine ⟨halpha, fun larger hlarger => ?_⟩
  simp only [halpha, abs_byte_sub_le hlarger, true_and]

/-! ### The hash -/

theorem pixelHash_toNat (px : Pixel) :
    (pixelHash px).toNat = (px.r.toNat * 3 + px.g.toNat * 5 + px.b.toNat * 7 + px.a.toNat * 11) % 64 :=
  BitVec.toNat_ofNat _ 6

/-- Settles O33: the bound is that of four bytes. -/
theorem hashIsSumModulo64 : Obligations.HashIsSumModulo64 := by
  unfold Obligations.HashIsSumModulo64
  refine ⟨fun px => ⟨pixelHash_toNat px, ?_⟩, by decide⟩
  have hr := px.r.isLt
  have hg := px.g.isLt
  have hb := px.b.isLt
  have ha := px.a.isLt
  omega

/-! ### The range tests -/

section RangeTests

variable {px prev : Pixel}

theorem diffOk_iff : diffOk px prev = true ↔ (-2 ≤ deltaR px prev ∧ deltaR px prev ≤ 1) ∧
    (-2 ≤ deltaG px prev ∧ deltaG px prev ≤ 1) ∧ -2 ≤ deltaB px prev ∧ deltaB px prev ≤ 1 :=
  wellFormed_diff_iff

theorem lumaOk_iff : lumaOk px prev = true ↔ (-32 ≤ deltaG px prev ∧ deltaG px prev ≤ 31) ∧
    (-8 ≤ deltaRG px prev ∧ deltaRG px prev ≤ 7) ∧ -8 ≤ deltaBG px prev ∧ deltaBG px prev ≤ 7 :=
  wellFormed_luma_iff

/-- Deltas in [-2, 1] differ by at most 3 (41_encode_pixel.md R143). -/
theorem lumaOk_of_diffOk (h : diffOk px prev = true) : lumaOk px prev = true := by
  obtain ⟨hr, hg, hb⟩ := diffOk_iff.mp h
  rw [lumaOk_iff, deltaRG, deltaBG]
  omega

end RangeTests

/-- Settles O34: the tests are `diffOk_iff` and `lumaOk_iff`, whose deltas are the exact differences. -/
theorem rangeTestsAreExact : Obligations.RangeTestsAreExact := by
  unfold Obligations.RangeTestsAreExact
  rintro px prev dr dg db rfl rfl rfl
  exact ⟨diffOk_iff, lumaOk_iff, lumaOk_of_diffOk⟩

/-! ### Bytes by arithmetic -/

/-- A value in `0..n-1` as an element of `Fin n`. -/
theorem exists_fin_of_range {n : Nat} {v : Int} (h0 : 0 ≤ v) (h1 : v < n) : ∃ x : Fin n, v = x.val :=
  ⟨⟨v.toNat, by omega⟩, (Int.toNat_of_nonneg h0).symm⟩

/-- The byte of INDEX is the slot (42_formatter.md R170). -/
theorem formatIndex_eq (slot : Slot) : formatIndex slot = [slot.setWidth 8] := by
  rw [formatIndex, byteOf, BitVec.ofInt_natCast, BitVec.ofNat_toNat]

/-- The fields of DIFF do not overlap: their union is a sum (42_formatter.md R171). -/
theorem formatDiff_eq {dr dg db : Int} (h : wellFormed (.diff dr dg db) = true) :
    formatDiff dr dg db = [BitVec.ofInt 8 (0x40 + (dr + 2) * 16 + (dg + 2) * 4 + (db + 2))] := by
  have hsum : ∀ x y z : Fin 4, 0x40#8 ||| byteOf x.val <<< 4 ||| byteOf y.val <<< 2 ||| byteOf z.val =
      BitVec.ofInt 8 (0x40 + x.val * 16 + y.val * 4 + z.val) := by decide
  obtain ⟨hr, hg, hb⟩ := wellFormed_diff_iff.mp h
  obtain ⟨x, hx⟩ := exists_fin_of_range (n := 4) (v := dr + 2) (by omega) (by omega)
  obtain ⟨y, hy⟩ := exists_fin_of_range (n := 4) (v := dg + 2) (by omega) (by omega)
  obtain ⟨z, hz⟩ := exists_fin_of_range (n := 4) (v := db + 2) (by omega) (by omega)
  rw [formatDiff, hx, hy, hz, hsum]

/-- Nor do those of LUMA (42_formatter.md R172). -/
theorem formatLuma_eq {dg drg dbg : Int} (h : wellFormed (.luma dg drg dbg) = true) :
    formatLuma dg drg dbg = [BitVec.ofInt 8 (0x80 + (dg + 32)), BitVec.ofInt 8 ((drg + 8) * 16 + (dbg + 8))] := by
  have hgreen : ∀ x : Fin 64, 0x80#8 ||| byteOf x.val = BitVec.ofInt 8 (0x80 + x.val) := by decide
  have hparts : ∀ x y : Fin 16, byteOf x.val <<< 4 ||| byteOf y.val = BitVec.ofInt 8 (x.val * 16 + y.val) := by decide
  obtain ⟨hg, hrg, hbg⟩ := wellFormed_luma_iff.mp h
  obtain ⟨x, hx⟩ := exists_fin_of_range (n := 64) (v := dg + 32) (by omega) (by omega)
  obtain ⟨y, hy⟩ := exists_fin_of_range (n := 16) (v := drg + 8) (by omega) (by omega)
  obtain ⟨z, hz⟩ := exists_fin_of_range (n := 16) (v := dbg + 8) (by omega) (by omega)
  rw [formatLuma, hx, hy, hz, hgreen, hparts]

/-! ### A near pixel, and the phases without a session -/

/-- Settles O35: below the cap the count alone grows, at the cap `FD` comes out. -/
theorem nearPixelContinuesRun : Obligations.NearPixelContinuesRun := by
  unfold Obligations.NearPixelContinuesRun
  intro px s hp hn
  rw [exec_pixel_of_near hp hn]
  obtain ⟨hcap, e⟩ | ⟨hcap, e⟩ := continueRun_cases s <;> rw [e]
  · rw [formatRun_cap]
    exact ⟨fun h => by omega, fun _ => rfl⟩
  · exact ⟨fun _ => rfl, fun h => absurd h hcap⟩

/-- Settles O39: fault entry with the code of the phase. -/
theorem pixelOutsideSessionFaults : Obligations.PixelOutsideSessionFaults := by
  unfold Obligations.PixelOutsideSessionFaults
  exact fun px s => ⟨execPixel_of_unconfigured s px, execPixel_of_finalized s px⟩

/-! ### A pixel that is not near -/

section NotNear

variable {px : Pixel} {s : State}

/-- Coding a pixel flushes first: on the flushed state it is coded the same, against the same `prev`
(41_encode_pixel.md R139). -/
theorem codePixel_flushRun (px : Pixel) (c : Choice) (s : State) : codePixel px c (flushRun s) = codePixel px c s := by
  rw [codePixel, codePixel, flushRun_of_idle (flushRun s) (flushRun_run s), flushRun_prev]

theorem encodePixel_flushRun_of_not_near (hn : near px s.prev s.thr = false) :
    encodePixel px (flushRun s) = encodePixel px s := by
  have hn' : near px (flushRun s).prev (flushRun s).thr = false := by simpa using hn
  rw [encodePixel_of_not_near hn, encodePixel_of_not_near hn', codePixel_flushRun, flushRun_prev, flushRun_thr,
    flushRun_cacheRead]

/-- A hit: INDEX after any flush, and no slot written (41_encode_pixel.md R140). -/
theorem encodePixel_of_hit (hn : near px s.prev s.thr = false) (hc : s.cacheRead (pixelHash px) = px) :
    encodePixel px s =
      { s with prev := px, run := 0#6, outq := s.flushedOutq ++ [(pixelHash px).setWidth 8] } := by
  obtain ⟨hn', -⟩ | ⟨hn', -⟩ | ⟨-, -, e⟩ | ⟨-, hc', -⟩ := encodePixel_result s px
  · simp [hn] at hn'
  · simp [hn] at hn'
  · rw [e, flushedOutq_eq, formatIndex_eq]
  · exact absurd hc hc'

/-- A miss: the slot is written, and the record of the selector comes after any flush (41_encode_pixel.md R141). -/
theorem encodePixel_of_miss (hn : near px s.prev s.thr = false) (hc : s.cacheRead (pixelHash px) ≠ px) :
    encodePixel px s =
      { s with
        prev := px
        run := 0#6
        cache := s.cache.set (pixelHash px).toNat px (pixelHash px).isLt
        outq := s.flushedOutq ++ choiceBytes px s.prev (selectMiss px s.prev) } := by
  obtain ⟨hn', -⟩ | ⟨hn', -⟩ | ⟨-, hc', -⟩ | ⟨-, -, e⟩ := encodePixel_result s px
  · simp [hn] at hn'
  · simp [hn] at hn'
  · exact absurd hc' hc
  · rw [e, flushedOutq_eq, State.cacheWrite_cache]

end NotNear

/-- Settles O36: the state with `run` 0 and the RUN byte added is the flushed state. -/
theorem flushComesBeforeRecord : Obligations.FlushComesBeforeRecord := by
  unfold Obligations.FlushComesBeforeRecord
  intro px s hp hn hrun
  have hflush : flushRun s =
      { s with run := 0#6, outq := s.outq ++ [0xC0#8 ||| BitVec.ofNat 8 (s.run.toNat - 1)] } :=
    flushRun_of_pending_byte hrun
  calc exec (.pixel px) s = .next (encodePixel px s) := execPixel_of_active s px hp
    _ = .next (encodePixel px (flushRun s)) := by rw [encodePixel_flushRun_of_not_near hn]
    _ = exec (.pixel px) (flushRun s) := (execPixel_of_active (flushRun s) px (by simpa using hp)).symm
    _ = _ := by rw [hflush]

/-- Settles O37: `encodePixel_of_hit`; a hit on the zero pixel is the zero pixel, whose hash is 0. -/
theorem cacheHitEmitsIndex : Obligations.CacheHitEmitsIndex := by
  unfold Obligations.CacheHitEmitsIndex
  intro px s hp hn hc
  refine ⟨(execPixel_of_active s px hp).trans (by rw [encodePixel_of_hit hn hc]), fun hzero => ?_⟩
  obtain rfl : px = ⟨0#8, 0#8, 0#8, 0#8⟩ := hc.symm.trans hzero
  exact ⟨rfl, by decide⟩

/-- Settles O38: `encodePixel_of_miss`, with the record `selectMiss` chooses under each test. -/
theorem cacheMissStoresAndEncodes : Obligations.CacheMissStoresAndEncodes := by
  unfold Obligations.CacheMissStoresAndEncodes
  rintro px s dr dg db hp hn hc rfl rfl rfl
  refine ⟨choiceBytes px s.prev (selectMiss px s.prev),
    (execPixel_of_active s px hp).trans (by rw [encodePixel_of_miss hn hc]), fun ha => ?rgba, fun ha hdiff => ?diff,
    fun ha hdiff hluma => ?luma, fun ha hdiff hluma => ?rgb, lumaOk_of_diffOk⟩
  case rgba =>
    rw [selectMiss, if_neg ha]
    rfl
  case diff =>
    rw [selectMiss, if_pos ha, if_pos hdiff]
    exact formatDiff_eq hdiff
  case luma =>
    rw [selectMiss, if_pos ha, if_neg (by simp [hdiff]), if_pos hluma]
    exact formatLuma_eq hluma
  case rgb =>
    rw [selectMiss, if_pos ha, if_neg (by simp [hdiff]), if_neg (by simp [hluma])]
    rfl

/-! ### The record of a pixel that is not near -/

section Record

variable {px prev slot : Pixel} {thr : Byte}

/-- INDEX is chosen for a pixel its slot holds, RGB for one of unchanged alpha (41_encode_pixel.md R140, R144). -/
theorem select_index_rgb :
    (select px prev thr slot = .index → slot = px) ∧ (select px prev thr slot = .rgb → px.a = prev.a) := by
  by_cases hn : near px prev thr = true
  · simp [select, hn]
  by_cases hc : slot = px
  · simp [select, hn, hc]
  · rw [select, if_neg hn, if_neg hc]
    refine ⟨fun h => absurd h (selectMiss_ne px prev).2, fun h => ?_⟩
    by_contra ha
    simp [selectMiss, ha] at h

/-- A delta added to the old channel gives the new one back (42_formatter.md R190). -/
theorem byteOf_add_channelDelta (new old : Byte) : byteOf (old.toNat + channelDelta new old) = new := by
  rw [channelDelta, add_sub_cancel, byteOf, BitVec.ofInt_natCast, BitVec.ofNat_toNat, BitVec.setWidth_eq]

/-- The chosen record of a pixel that is not near: its bytes are the record's encoding, the record is no RUN, and the
reference decoder that stands where the encoder stands reads it as the pixel. -/
theorem exists_record_of_not_near {s : State} (hn : near px s.prev s.thr = false) :
    ∃ i, wellFormed i = true ∧
      encode i = .record (choiceBytes px s.prev (select px s.prev s.thr (s.cacheRead (pixelHash px)))) ∧
      (∀ n, i ≠ .run n) ∧ refRecord i s.asDecoder = some (refPixel px s.asDecoder) := by
  obtain ⟨hcontinue, hdiff, hluma⟩ := select_spec px s.prev (s.cacheRead (pixelHash px)) s.thr
  obtain ⟨hindex, hrgb⟩ := select_index_rgb (px := px) (prev := s.prev) (thr := s.thr)
    (slot := s.cacheRead (pixelHash px))
  cases h : select px s.prev s.thr (s.cacheRead (pixelHash px)) with
  | continueRun => simp [hcontinue.mp h] at hn
  | index =>
    have hread : refRecord (.index (pixelHash px)) s.asDecoder =
        some (refPixel (s.cacheRead (pixelHash px)) s.asDecoder) := rfl
    exact ⟨.index (pixelHash px), rfl, by rw [choiceBytes, formatIndex_layout, encode], by simp,
      by rw [hread, hindex h]⟩
  | diff =>
    obtain ⟨ha, hwf⟩ := hdiff h
    have hwf : wellFormed (.diff (deltaR px s.prev) (deltaG px s.prev) (deltaB px s.prev)) = true := hwf
    refine ⟨_, hwf, by rw [choiceBytes, formatDiff_layout hwf, encode], by simp, ?_⟩
    simp only [refRecord, State.asDecoder, deltaR, deltaG, deltaB, byteOf_add_channelDelta, ← ha]
  | luma =>
    obtain ⟨ha, -, hwf⟩ := hluma h
    have hwf : wellFormed (.luma (deltaG px s.prev) (deltaRG px s.prev) (deltaBG px s.prev)) = true := hwf
    refine ⟨_, hwf, by rw [choiceBytes, formatLuma_layout hwf, encode], by simp, ?_⟩
    simp only [refRecord, State.asDecoder, deltaRG, deltaBG, add_assoc, add_sub_cancel, deltaR, deltaG, deltaB,
      byteOf_add_channelDelta, ← ha]
  | rgb => exact ⟨.rgb px.r px.g px.b, rfl, rfl, by simp, by simp only [refRecord, State.asDecoder, ← hrgb h]⟩
  | rgba => exact ⟨.rgba px.r px.g px.b px.a, rfl, rfl, by simp, rfl⟩

/-- A record other than RUN, with its kind and its number of bytes (30_encoding.md R91). -/
def IsRecordOfLength (i : Instr) (n : Nat) : Prop :=
  ((∃ slot, i = .index slot) ∧ n = 1) ∨ ((∃ dr dg db, i = .diff dr dg db) ∧ n = 1) ∨
    ((∃ dg drg dbg, i = .luma dg drg dbg) ∧ n = 2) ∨ ((∃ r g b, i = .rgb r g b) ∧ n = 4) ∨
    ((∃ r g b a, i = .rgba r g b a) ∧ n = 5)

/-- Bytes that are one whole record, no RUN, have the length of its kind. -/
theorem isRecordOfLength_of_decodeRecord {bytes : List Byte} {i : Instr} (h : decodeRecord bytes = .ok (i, []))
    (hrun : ∀ n, i ≠ .run n) : IsRecordOfLength i bytes.length := by
  obtain ⟨r, g, b, rfl, rfl⟩ | ⟨r, g, b, a, rfl, rfl⟩ | ⟨b0, rfl, -, -, ⟨-, rfl⟩ | ⟨-, rfl⟩ | ⟨-, rfl⟩⟩ |
    ⟨b0, b1, rfl, -, -, -, rfl⟩ := decodeRecord_cases h
  case inr.inr.inl.inr.inr => exact absurd rfl (hrun _)
  all_goals simp [IsRecordOfLength]

/-- RGBA is the one record of 5 bytes. -/
theorem IsRecordOfLength.eq_five_iff {i : Instr} {n : Nat} (h : IsRecordOfLength i n) :
    n ≤ 5 ∧ (n = 5 ↔ ∃ r g b a, i = .rgba r g b a) := by
  obtain ⟨⟨_, rfl⟩, rfl⟩ | ⟨⟨_, _, _, rfl⟩, rfl⟩ | ⟨⟨_, _, _, rfl⟩, rfl⟩ | ⟨⟨_, _, _, rfl⟩, rfl⟩ |
    ⟨⟨_, _, _, _, rfl⟩, rfl⟩ := h <;> simp

end Record

/-! ### What one PIXEL emits, and the modes -/

/-- A flush is one byte where a run is pending, else none (41_encode_pixel.md R139). -/
theorem flushBytes_length_eq (run : BitVec 6) : (flushBytes run).length = if run = 0#6 then 0 else 1 := by
  rw [flushBytes]
  split <;> rfl

/-- Settles O40: a near pixel emits what `continueRun_outq` says, another its flush and the record of
`exists_record_of_not_near`. -/
theorem pixelOutputLength : Obligations.PixelOutputLength := by
  unfold Obligations.PixelOutputLength
  intro px s hp
  cases hn : near px s.prev s.thr with
  | true =>
    refine ⟨_, _, exec_pixel_of_near hp hn, continueRun_outq s, ?_, fun _ => ⟨(if_neg ·), (if_pos ·)⟩, by simp⟩
    split <;> simp
  | false =>
    obtain ⟨i, hwf, henc, hrun, -⟩ := exists_record_of_not_near hn
    set record := choiceBytes px s.prev (select px s.prev s.thr (s.cacheRead (pixelHash px)))
    have hdec : decodeRecord record = .ok (i, []) := by simpa using decodeRecord_encode [] hwf henc
    have hkind := isRecordOfLength_of_decodeRecord hdec hrun
    obtain ⟨hle, hfive⟩ := hkind.eq_five_iff
    have hflush := flushBytes_length_eq s.run
    have hout : (encodePixel px s).outq = s.outq ++ (flushBytes s.run ++ record) := by
      rw [encodePixel_outq_of_not_near hn, flushedOutq_eq, List.append_assoc]
    refine ⟨_, _, execPixel_of_active s px hp, hout, ?_, by simp, fun _ => ⟨_, record, i, rfl, (if_pos ·), ?_,
      decodeRecord_flushBytes s.run, hdec, hkind, ?_⟩⟩
    · have hflushLe := flushBytes_length s.run
      simp only [List.length_append]
      omega
    · exact fun hpending => hflush.trans (if_neg hpending)
    · rw [List.length_append, hflush]
      split_ifs with hidle
      · exact iff_of_false (by omega) fun ⟨hpending, _⟩ => hpending hidle
      · rw [and_iff_right hidle, ← hfive]
        omega

theorem State.mode_idle_iff {s : State} : s.mode = .idle ↔ s.run = 0#6 := by
  simp [State.mode]

theorem State.mode_accumulatingRun_iff {s : State} : s.mode = .accumulatingRun ↔ s.run ≠ 0#6 := by
  simp [State.mode]

/-- Settles O41: the mode is whether `run` is 0, and `continueRun_run` counts a near pixel. -/
theorem modesChangeAsStated : Obligations.ModesChangeAsStated := by
  unfold Obligations.ModesChangeAsStated
  intro px s t hp hle
  refine ⟨fun h hn hidle => ?idleNear, fun h hn _ h60 => ?runningNear, fun h hn hcap => ?capNear,
    fun h hn => ?notNear, fun h => ?finalize, fun x h => ?init⟩
  case idleNear =>
    obtain rfl := exec_next_unique h (exec_pixel_of_near hp hn)
    have hone : (continueRun s).run = 1#6 := BitVec.eq_of_toNat_eq (by
      simp [continueRun_run hle, State.mode_idle_iff.mp hidle])
    exact ⟨State.mode_accumulatingRun_iff.mpr (by simp [hone]), hone⟩
  case runningNear =>
    obtain rfl := exec_next_unique h (exec_pixel_of_near hp hn)
    have hcount : (continueRun s).run.toNat = s.run.toNat + 1 := (continueRun_run hle).trans (if_neg (by omega))
    refine ⟨State.mode_accumulatingRun_iff.mpr fun hzero => ?_, hcount⟩
    simp [hzero] at hcount
  case capNear =>
    obtain rfl := exec_next_unique h (exec_pixel_of_near hp hn)
    have hzero : (continueRun s).run.toNat = 0 := (continueRun_run hle).trans (if_pos hcap)
    exact ⟨State.mode_idle_iff.mpr (BitVec.eq_of_toNat_eq hzero), by rw [continueRun_outq, if_pos hcap]⟩
  case notNear =>
    obtain rfl := exec_next_unique h (execPixel_of_active s px hp)
    obtain ⟨i, hdec, -⟩ := decodeRecord_choiceBytes (slot := s.cacheRead (pixelHash px)) hn
    refine ⟨State.mode_idle_iff.mpr (encodePixel_run_of_not_near hn), _, fun hnil => ?_,
      encodePixel_outq_of_not_near hn⟩
    rw [hnil] at hdec
    cases hdec
  case finalize =>
    obtain rfl := exec_next_unique h (exec_finalize_of_active hp)
    exact State.mode_idle_iff.mpr (by simp)
  case init =>
    obtain rfl := exec_next_unique h (exec_init_fields x s)
    exact ⟨rfl, rfl⟩

end Sys2Proof.Machine
end

section
/-! PROOF. What the output of a session says (41_encode_pixel.md R147, R149; 42_formatter.md R190).  The reference
decoder, standing where the encoder stands, reads the bytes still to come as the pending run of `prev` and then a pixel
for each PIXEL still to come. -/

namespace Sys2Proof.Machine

/-! ### The reference decoder on bytes one record after another -/

theorem refDecode_nil (fuel : Nat) (d : RefDecoder) : refDecode fuel [] d = some ([], d) := by
  cases fuel <;> rfl

/-- More fuel decodes no other way. -/
theorem refDecode_fuel_mono {n m : Nat} {bytes : List Byte} {d : RefDecoder} {answer : List Pixel × RefDecoder}
    (hnm : n ≤ m) (h : refDecode n bytes d = some answer) : refDecode m bytes d = some answer := by
  induction n generalizing m bytes d answer with
  | zero =>
    cases bytes with
    | nil => rwa [refDecode_nil] at h ⊢
    | cons b0 rest => cases h
  | succ n ih =>
    cases bytes with
    | nil => rwa [refDecode_nil] at h ⊢
    | cons b0 rest =>
      obtain ⟨m, rfl⟩ := Nat.exists_eq_add_of_le' (Nat.lt_of_lt_of_le n.succ_pos hnm)
      have hnm : n ≤ m := Nat.le_of_succ_le_succ hnm
      rw [refDecode] at h ⊢
      split at h
      · cases h
      · split at h
        · cases h
        · obtain ⟨later, hlater, rfl⟩ := Option.map_eq_some_iff.mp h
          simp [*, ih hnm hlater]

/-- A record's bytes in front: its pixels come first, and the bytes after it are read by the decoder it leaves. -/
theorem refDecodeBytes_record {i : Instr} {own rest : List Byte} {d d' d'' : RefDecoder} {out later : List Pixel}
    (hwf : wellFormed i = true) (henc : encode i = .record own) (hrec : refRecord i d = some (out, d'))
    (hrest : refDecodeBytes rest d' = some (later, d'')) :
    refDecodeBytes (own ++ rest) d = some (out ++ later, d'') := by
  have hdec := decodeRecord_encode rest hwf henc
  cases own with
  | nil => cases decodeRecord_encode [] hwf henc
  | cons b0 tail =>
    have hmore : refDecode (tail ++ rest).length rest d' = some (later, d'') :=
      refDecode_fuel_mono (by simp) hrest
    have hfirst : refDecodeBytes (b0 :: tail ++ rest) d =
        (refDecode (tail ++ rest).length rest d').map fun p => (out ++ p.1, p.2) := by
      simp only [List.cons_append] at hdec
      simp only [refDecodeBytes, List.cons_append, List.length_cons, refDecode, hdec, hrec]
    rw [hfirst, hmore, Option.map_some]

/-- The byte of RUN `n` in front: `n` copies of the decoder's `prev` (42_formatter.md R190). -/
theorem refDecodeBytes_formatRun {n : Nat} {rest : List Byte} {d d' : RefDecoder} {later : List Pixel} (h1 : 1 ≤ n)
    (h62 : n ≤ 62) (hrest : refDecodeBytes rest d = some (later, d')) :
    refDecodeBytes (formatRun n ++ rest) d = some (List.replicate n d.prev ++ later, d') := by
  have hwf : wellFormed (.run n) = true := wellFormed_run_iff.mpr ⟨h1, h62⟩
  exact refDecodeBytes_record hwf (by rw [formatRun_layout hwf, encode]) rfl hrest

/-- A flush in front, empty or not: the pending run. -/
theorem refDecodeBytes_flushBytes {run : BitVec 6} {rest : List Byte} {d d' : RefDecoder} {later : List Pixel}
    (hle : run.toNat ≤ 61) (hrest : refDecodeBytes rest d = some (later, d')) :
    refDecodeBytes (flushBytes run ++ rest) d = some (List.replicate run.toNat d.prev ++ later, d') := by
  by_cases hidle : run = 0#6
  · subst hidle
    exact hrest
  · have hpos : run.toNat ≠ 0 := fun h => hidle (BitVec.eq_of_toNat_eq h)
    rw [flushBytes, if_neg hidle]
    exact refDecodeBytes_formatRun (by omega) (by omega) hrest

/-! ### The decoder and one PIXEL -/

section Pixel

variable {px : Pixel} {s : State}

/-- A near pixel leaves the decoder where it was: `prev` and the cache stay (41_encode_pixel.md R137). -/
theorem continueRun_asDecoder (s : State) : (continueRun s).asDecoder = s.asDecoder := by
  obtain ⟨hprev, hcache⟩ := continueRun_anchor s
  rw [State.asDecoder, State.asDecoder, hprev, hcache]

/-- A pixel that is not near moves the encoder as its record moves the decoder; on a hit the slot holds the pixel
already. -/
theorem encodePixel_asDecoder_of_not_near (hn : near px s.prev s.thr = false) :
    (encodePixel px s).asDecoder = (refPixel px s.asDecoder).2 := by
  by_cases hc : s.cacheRead (pixelHash px) = px
  · have hwrite := State.cacheWrite_cacheRead s (pixelHash px)
    rw [hc] at hwrite
    have hsame : s.cache.set (pixelHash px).toNat px (pixelHash px).isLt = s.cache := congrArg State.cache hwrite
    rw [encodePixel_of_hit hn hc, refPixel, State.asDecoder, State.asDecoder, hsame]
  · rw [encodePixel_of_miss hn hc, refPixel, State.asDecoder, State.asDecoder]

end Pixel

/-- What `bytes`, still to come from the block in state `s`, say: the pending run of `prev`, and then `out`. -/
def StandsFor (s : State) (bytes : List Byte) (out : List Pixel) (d : RefDecoder) : Prop :=
  refDecodeBytes bytes s.asDecoder = some (List.replicate s.run.toNat s.prev ++ out, d)

/-- One more copy of the anchor belongs to the run, or comes first after it. -/
theorem replicate_append_cons (n : Nat) (px : Pixel) (out : List Pixel) :
    List.replicate n px ++ px :: out = List.replicate (n + 1) px ++ out := by
  rw [List.replicate_succ', List.append_assoc, List.singleton_append]

/-- A near pixel is read back as the anchor (41_encode_pixel.md R149). -/
theorem continueRun_standsFor {s : State} {rest : List Byte} {out : List Pixel} {d : RefDecoder}
    (hle : s.run.toNat ≤ 61) (hq : s.outq = []) (h : StandsFor (continueRun s) rest out d) :
    StandsFor s ((continueRun s).outq ++ rest) (s.prev :: out) d := by
  rw [StandsFor, continueRun_asDecoder, continueRun_run hle, (continueRun_anchor s).1] at h
  rw [StandsFor, continueRun_outq, hq, List.nil_append, replicate_append_cons]
  by_cases hcap : s.run.toNat = 61
  · rw [if_pos hcap] at h
    rw [if_pos hcap, hcap, ← formatRun_cap]
    exact refDecodeBytes_formatRun (by omega) (by omega) h
  · rw [if_neg hcap] at h
    rwa [if_neg hcap]

/-- A pixel that is not near is read back as itself, after the flushed run (41_encode_pixel.md R149). -/
theorem encodePixel_standsFor_of_not_near {px : Pixel} {s : State} {rest : List Byte} {out : List Pixel}
    {d : RefDecoder} (hle : s.run.toNat ≤ 61) (hq : s.outq = []) (hn : near px s.prev s.thr = false)
    (h : StandsFor (encodePixel px s) rest out d) :
    StandsFor s ((encodePixel px s).outq ++ rest) (px :: out) d := by
  obtain ⟨i, hwf, henc, -, hrec⟩ := exists_record_of_not_near hn
  rw [StandsFor, encodePixel_asDecoder_of_not_near hn, encodePixel_run_of_not_near hn] at h
  rw [StandsFor, encodePixel_outq_of_not_near hn, flushedOutq_eq, hq, List.nil_append, List.append_assoc]
  exact refDecodeBytes_flushBytes hle (refDecodeBytes_record hwf henc hrec h)

theorem near_self (px : Pixel) (thr : Byte) : near px px thr = true :=
  near_of_deltas_zero thr rfl (sub_self _) (sub_self _) (sub_self _)

/-! ### A session -/

/-- A block in a session at threshold `x`, ready for the next command. -/
structure InSession (x : Byte) (s : State) : Prop where
  phase : s.phase = .active
  thr : s.thr = x
  run_le : s.run.toNat ≤ 61
  fault : s.fault = false
  outq : s.outq = []

/-- PIXEL and the transfer of its bytes leave the block in the session. -/
theorem InSession.pixel {x : Byte} {s : State} (hs : InSession x s) (px : Pixel) :
    InSession x (encodePixel px s).drain where
  phase := by simp [hs.phase]
  thr := by simp [hs.thr]
  run_le := encodePixel_run_le hs.run_le
  fault := by simp [hs.fault]
  outq := rfl

/-- In a session a pixel is read back as one within the threshold: the anchor, or the pixel itself. -/
theorem InSession.encodePixel_standsFor {x : Byte} {s : State} (hs : InSession x s) (px : Pixel) :
    ∃ q, near px q x = true ∧ ∀ rest out d, StandsFor (encodePixel px s) rest out d →
      StandsFor s ((encodePixel px s).outq ++ rest) (q :: out) d := by
  cases hn : near px s.prev s.thr with
  | true =>
    rw [encodePixel_of_near hn]
    exact ⟨s.prev, hs.thr ▸ hn, fun _ _ _ => continueRun_standsFor hs.run_le hs.outq⟩
  | false => exact ⟨px, near_self px x, fun _ _ _ => encodePixel_standsFor_of_not_near hs.run_le hs.outq hn⟩

/-- A command list starts with the transaction of its first command (20_memory.md R70). -/
theorem transactAll_cons_of_exec {i : Instr} {later : List Instr} {s t : State} (hf : s.fault = false)
    (hq : s.outq = []) (h : exec i s = .next t) : transactAll (i :: later) s = transactAll later t.drain := by
  simp [transactAll, transact, hf, State.drain_of_outq_nil hq, h]

/-- The rest of a session, by induction on the pixels: it completes, and its bytes stand for as many pixels, each within
the threshold of its original. -/
theorem transactAll_pixels (pixels : List Pixel) {x : Byte} {s : State} (hs : InSession x s) :
    ∃ u bytes out d, transactAll (pixels.map .pixel ++ [.finalize]) s = .next u ∧ u.sink = s.sink ++ bytes ∧
      StandsFor s bytes out d ∧ WithinThreshold x pixels out := by
  induction pixels generalizing s with
  | nil =>
    have hflush : (flushRun s).outq = flushBytes s.run := by rw [flushRun_outq, hs.outq, List.nil_append]
    have hstands : StandsFor s (flushBytes s.run ++ []) [] s.asDecoder := refDecodeBytes_flushBytes hs.run_le rfl
    rw [List.append_nil] at hstands
    exact ⟨_, flushBytes s.run, [], _,
      transactAll_cons_of_exec hs.fault hs.outq (exec_finalize_of_active hs.phase), by simp [hflush], hstands, .nil⟩
  | cons px pixels ih =>
    obtain ⟨q, hq, hstands⟩ := hs.encodePixel_standsFor px
    obtain ⟨u, bytes, out, d, htransact, hsink, hrest, hwithin⟩ := ih (hs.pixel px)
    obtain ⟨hsame, -⟩ := encodePixel_sameEnvironment px s
    refine ⟨u, (encodePixel px s).outq ++ bytes, q :: out, d, ?_, ?_, hstands bytes out d hrest, .cons hq hwithin⟩
    · have hexec : exec (.pixel px) s = .next (encodePixel px s) := execPixel_of_active s px hs.phase
      exact (transactAll_cons_of_exec hs.fault hs.outq hexec).trans htransact
    · rw [hsink, State.drain_sink, hsame, List.append_assoc]

/-- INIT starts a session where the reference decoder starts, with no run pending and nothing emitted
(40_session.md R111, 42_formatter.md R190). -/
theorem exec_init_inSession (x : Byte) {s : State} (hf : s.fault = false) (hq : s.outq = []) :
    ∃ t, exec (.init x) s = .next t ∧ InSession x t.drain ∧ t.drain.asDecoder = refStart ∧ t.drain.run = 0#6 ∧
      t.drain.sink = s.sink :=
  ⟨_, exec_init_fields x s, ⟨rfl, rfl, Nat.zero_le 61, hf, rfl⟩, rfl, rfl, by simp [hq]⟩

/-- Settles O56: the session INIT starts (`exec_init_inSession`) goes on as `transactAll_pixels` says. -/
theorem sessionDecodesWithinThreshold : Obligations.SessionDecodesWithinThreshold := by
  unfold Obligations.SessionDecodesWithinThreshold
  intro x pixels s hf hq
  obtain ⟨t, hexec, hsession, hstart, hidle, hsinkStart⟩ := exec_init_inSession x hf hq
  obtain ⟨u, bytes, out, d, htransact, hsink, hstands, hwithin⟩ := transactAll_pixels pixels hsession
  rw [StandsFor, hstart, hidle] at hstands
  exact ⟨u, bytes, out, d, (transactAll_cons_of_exec hf hq hexec).trans htransact, by rw [hsink, hsinkStart], hstands,
    hwithin⟩

/-- At threshold 0 a pixel is near exactly where it equals `prev` (41_encode_pixel.md R147). -/
theorem near_zero_iff {px prev : Pixel} : near px prev 0#8 = true ↔ px = prev := by
  have hbyte (new old : Byte) : |(new.toNat : Int) - old.toNat| ≤ (0#8 : Byte).toNat ↔ new = old := by
    rw [BitVec.toNat_ofNat, Nat.zero_mod, Nat.cast_zero, abs_nonpos_iff, sub_eq_zero, Nat.cast_inj, BitVec.toNat_inj]
  cases px
  cases prev
  rw [comparatorIsExact, hbyte, hbyte, hbyte, Pixel.mk.injEq]

/-- Settles O57: at threshold 0 near is equality, so the pixels `sessionDecodesWithinThreshold` gives are the
originals. -/
theorem thresholdZeroIsLossless : Obligations.ThresholdZeroIsLossless := by
  unfold Obligations.ThresholdZeroIsLossless
  refine ⟨fun _ _ => near_zero_iff, fun pixels s hf hq => ?_⟩
  obtain ⟨u, bytes, out, d, htransact, hsink, hdec, hwithin⟩ := sessionDecodesWithinThreshold 0#8 pixels s hf hq
  have hsame : pixels = out := by
    simpa only [WithinThreshold, near_zero_iff, List.forall₂_eq_eq_eq] using hwithin
  exact ⟨u, bytes, d, htransact, hsink, hsame ▸ hdec⟩

end Sys2Proof.Machine
end

section
/-! PROOF. The formatter (42_formatter.md): the bytes of each record by arithmetic (R170 to R175), the record at the
formatter's input (log entries 8 and 9), and the reference decoder beside one PIXEL (R190). -/

namespace Sys2Proof.Machine

/-! ### Records -/

/-- The byte of RUN by natural numbers: the tag and the length less one do not overlap (42_formatter.md R173). -/
theorem formatRun_eq {n : Nat} (h : wellFormed (.run n) = true) : formatRun n = [BitVec.ofNat 8 (0xC0 + (n - 1))] := by
  obtain ⟨h1, h62⟩ := wellFormed_run_iff.mp h
  obtain ⟨b, hb, hval⟩ := formatRun_byte h1 h62
  rw [hb, ← hval, BitVec.ofNat_toNat, BitVec.setWidth_eq]

/-- Settles O46: a record emits what the formatter makes of its operands, and each formatter's bytes are the sums
stated. -/
theorem recordsEmitTheirBytes : Obligations.RecordsEmitTheirBytes := by
  unfold Obligations.RecordsEmitTheirBytes
  intro s
  refine ⟨fun slot => ?index, fun dr dg db hwf => ?diff, fun dg drg dbg hwf => ?luma, fun n hwf => ?run,
    fun r g b => rfl, fun r g b a => rfl⟩
  case index => rw [← formatIndex_eq]; rfl
  case diff => rw [← formatDiff_eq hwf]; rfl
  case luma => rw [← formatLuma_eq hwf]; rfl
  case run => rw [← formatRun_eq hwf]; rfl

/-- Settles O9: no fault and an empty `outq` make the block ready, and a ready block runs the record. -/
theorem stepRunsFormatterRecord : Obligations.StepRunsFormatterRecord := by
  unfold Obligations.StepRunsFormatterRecord
  intro s bytes i rest hform hdec hf hq
  exact step_of_record hform hdec (State.ready_iff.mpr ⟨hf, hq⟩)

/-! ### The reference decoder beside one PIXEL -/

/-- What a near pixel emits is read as the full run of the anchor at the cap, else as no pixel, and moves the decoder
nowhere (41_encode_pixel.md R137, R138). -/
theorem refDecodeBytes_continueRun {s : State} (hq : s.outq = []) :
    refDecodeBytes (continueRun s).outq s.asDecoder =
      some (if s.run.toNat = 61 then List.replicate 62 s.prev else [], (continueRun s).asDecoder) := by
  rw [continueRun_outq, hq, List.nil_append, continueRun_asDecoder]
  by_cases hcap : s.run.toNat = 61
  · have hfull := refDecodeBytes_formatRun (n := 62) (rest := []) (d := s.asDecoder) (by omega) le_rfl rfl
    rw [List.append_nil, List.append_nil] at hfull
    rw [if_pos hcap, if_pos hcap, ← formatRun_cap, hfull]
    rfl
  · rw [if_neg hcap, if_neg hcap]
    rfl

/-- What a pixel that is not near emits is read as the flushed run of the anchor and the pixel, by a decoder that ends
where the encoder ends (41_encode_pixel.md R139, R145). -/
theorem refDecodeBytes_encodePixel_of_not_near {px : Pixel} {s : State} (hle : s.run.toNat ≤ 61) (hq : s.outq = [])
    (hn : near px s.prev s.thr = false) :
    refDecodeBytes (encodePixel px s).outq s.asDecoder =
      some (List.replicate s.run.toNat s.prev ++ [px], (encodePixel px s).asDecoder) := by
  have hidle : StandsFor (encodePixel px s) [] [] (encodePixel px s).asDecoder := by
    rw [StandsFor, encodePixel_run_of_not_near hn]
    rfl
  have hstands := encodePixel_standsFor_of_not_near hle hq hn hidle
  rwa [List.append_nil] at hstands

/-- Settles O55: a near pixel by `refDecodeBytes_continueRun`, any other by
`refDecodeBytes_encodePixel_of_not_near`. -/
theorem decoderFollowsPixel : Obligations.DecoderFollowsPixel := by
  unfold Obligations.DecoderFollowsPixel
  intro px s hp hle hq
  cases hn : near px s.prev s.thr with
  | true =>
    exact ⟨_, _, exec_pixel_of_near hp hn, refDecodeBytes_continueRun hq, fun _ hcap => if_neg hcap,
      fun _ hcap => if_pos hcap, nofun⟩
  | false =>
    exact ⟨_, _, execPixel_of_active s px hp, refDecodeBytes_encodePixel_of_not_near hle hq hn, nofun, nofun,
      fun _ => rfl⟩

end Sys2Proof.Machine
end

section
/-! PROOF. Framing (43_framing.md): what HEADER and FOOTER do (R200 to R203), PIXEL as a function of the encoder state
(R202), and an IMAGE from its header to its terminator (R204, R205). -/

namespace Sys2Proof.Machine

/-! ### HEADER and FOOTER -/

section Header

variable {c : Byte}

/-- HEADER with 3 or 4 channels emits the header and does nothing else (43_framing.md R200). -/
theorem exec_header_of_valid (w h : Dim) (s : State) (hc : c = 3#8 ∨ c = 4#8) :
    exec (.header w h c) s = .next (s.emit (headerBytes w h c)) := if_pos hc

/-- HEADER with any other channel count raises BadChannelCount and does nothing else (43_framing.md R200). -/
theorem exec_header_of_invalid (w h : Dim) (s : State) (hc : ¬(c = 3#8 ∨ c = 4#8)) :
    exec (.header w h c) s = .next (s.raiseFault .badChannelCount) := if_neg hc

end Header

/-- FOOTER emits the terminator and does nothing else (43_framing.md R203). -/
theorem exec_footer (s : State) : exec .footer s = .next (s.emit footerBytes) := rfl

/-- The four bytes of a dimension by arithmetic (20_memory.md R63). -/
theorem u32be_eq (v : Dim) :
    u32be v = [BitVec.ofNat 8 (v.toNat / 2 ^ 24), BitVec.ofNat 8 (v.toNat / 2 ^ 16), BitVec.ofNat 8 (v.toNat / 2 ^ 8),
      BitVec.ofNat 8 v.toNat] := by
  simp only [u32be, BitVec.extractLsb', Nat.shiftRight_eq_div_pow, Nat.pow_zero, Nat.div_one]

theorem headerBytes_length (w h : Dim) (c : Byte) : (headerBytes w h c).length = 14 := rfl

theorem footerBytes_length : footerBytes.length = 8 := rfl

/-- Settles O49: the two branches of HEADER, with the dimensions' bytes by `u32be_eq`. -/
theorem headerEmitsFourteenBytes : Obligations.HeaderEmitsFourteenBytes := by
  unfold Obligations.HeaderEmitsFourteenBytes
  intro w h c s
  refine ⟨fun hc => ?valid, fun hc => exec_header_of_invalid w h s (not_or.mpr hc)⟩
  case valid =>
    rw [exec_header_of_valid w h s hc, headerBytes, u32be_eq, u32be_eq]
    rfl

/-- Settles O50: `exec_footer`, with the terminator written out. -/
theorem footerEmitsTerminator : Obligations.FooterEmitsTerminator := by
  unfold Obligations.FooterEmitsTerminator
  exact exec_footer

/-! ### Independence of framing and encoder -/

/-- A framing command does the same in every state: it adds the same bytes, or raises the same fault
(43_framing.md R202). -/
theorem exec_framing_uniform {i : Instr} (hi : (∃ w h c, i = .header w h c) ∨ i = .footer) :
    ∃ (bytes : List Byte) (raises : Bool), ∀ s : State, exec i s = .next
      { s with
        outq := s.outq ++ bytes
        fault := s.fault || raises
        faultCode := if raises then 4#3 else s.faultCode } := by
  obtain ⟨w, h, c, rfl⟩ | rfl := hi
  · by_cases hc : c = 3#8 ∨ c = 4#8
    · exact ⟨headerBytes w h c, false, fun s => by simp [exec_header_of_valid w h s hc, State.emit]⟩
    · exact ⟨[], true, fun s => by simp [exec_header_of_invalid w h s hc, State.raiseFault, faultCauseCode]⟩
  · exact ⟨footerBytes, false, fun s => by simp [exec_footer, State.emit]⟩

/-- From `s₁` to `t₁` and from `s₂` to `t₂` the same bytes are emitted, and the encoder state ends the same. -/
def EncodeAlike (s₁ s₂ t₁ t₂ : State) : Prop :=
  SameEncoder t₁ t₂ ∧ ∃ bytes, t₁.outq = s₁.outq ++ bytes ∧ t₂.outq = s₂.outq ++ bytes

section SameEncoderState

variable {s₁ s₂ : State} (h : SameEncoder s₁ s₂)

include h

theorem raiseFault_encodeAlike (c : FaultCause) : EncodeAlike s₁ s₂ (s₁.raiseFault c) (s₂.raiseFault c) :=
  ⟨h, [], by simp, by simp⟩

/-- The run accumulator reads `run` alone (41_encode_pixel.md R137, R138). -/
theorem continueRun_encodeAlike : EncodeAlike s₁ s₂ (continueRun s₁) (continueRun s₂) := by
  obtain ⟨hprev, hrun, hcache, hthr, hphase⟩ := h
  unfold continueRun
  rw [← hrun]
  split
  · exact ⟨⟨hprev, rfl, hcache, hthr, hphase⟩, _, rfl, rfl⟩
  · exact ⟨⟨hprev, rfl, hcache, hthr, hphase⟩, [], by simp, by simp⟩

/-- Coding a pixel reads `prev`, `run` and the cache (41_encode_pixel.md R139 to R145). -/
theorem codePixel_encodeAlike (px : Pixel) (c : Choice) :
    EncodeAlike s₁ s₂ (codePixel px c s₁) (codePixel px c s₂) := by
  obtain ⟨hprev, hrun, hcache, hthr, hphase⟩ := h
  have hupdate : (updateCache px c s₁).cache = (updateCache px c s₂).cache := by
    cases c <;> simp [updateCache, hcache]
  rw [codePixel_frame, codePixel_frame, ← hprev, ← hrun]
  exact ⟨⟨rfl, rfl, hupdate, hthr, hphase⟩, flushBytes s₁.run ++ choiceBytes px s₁.prev c, by simp, by simp⟩

/-- The comparator and the selector, too, see the encoder state alone, so both states take the same branch. -/
theorem encodePixel_encodeAlike (px : Pixel) : EncodeAlike s₁ s₂ (encodePixel px s₁) (encodePixel px s₂) := by
  have ⟨hprev, _, hcache, hthr, _⟩ := h
  have hnear : near px s₂.prev s₂.thr = near px s₁.prev s₁.thr := by rw [hprev, hthr]
  cases hn : near px s₁.prev s₁.thr with
  | true =>
    rw [encodePixel_of_near hn, encodePixel_of_near (hnear.trans hn)]
    exact continueRun_encodeAlike h
  | false =>
    rw [encodePixel_of_not_near hn, encodePixel_of_not_near (hnear.trans hn), ← hprev, ← hthr,
      ← State.cacheRead_congr hcache]
    exact codePixel_encodeAlike h px _

/-- In every phase, what a PIXEL does depends on the encoder state alone (43_framing.md R202). -/
theorem exec_pixel_encodeAlike {px : Pixel} {t₁ t₂ : State} (h₁ : exec (.pixel px) s₁ = .next t₁)
    (h₂ : exec (.pixel px) s₂ = .next t₂) : EncodeAlike s₁ s₂ t₁ t₂ := by
  have ⟨_, _, _, _, hphase⟩ := h
  obtain hp | hp | hp := phase_cases s₁.phase
  · obtain rfl := exec_next_unique h₁ (execPixel_of_unconfigured s₁ px hp)
    obtain rfl := exec_next_unique h₂ (execPixel_of_unconfigured s₂ px (hphase ▸ hp))
    exact raiseFault_encodeAlike h _
  · obtain rfl := exec_next_unique h₁ (execPixel_of_active s₁ px hp)
    obtain rfl := exec_next_unique h₂ (execPixel_of_active s₂ px (hphase ▸ hp))
    exact encodePixel_encodeAlike h px
  · obtain rfl := exec_next_unique h₁ (execPixel_of_finalized s₁ px hp)
    obtain rfl := exec_next_unique h₂ (execPixel_of_finalized s₂ px (hphase ▸ hp))
    exact raiseFault_encodeAlike h _

end SameEncoderState

/-- Settles O51: `exec_framing_uniform` names no field of the encoder state, and `exec_pixel_encodeAlike` is the clause
on PIXEL. -/
theorem framingIsIndependentOfEncoder : Obligations.FramingIsIndependentOfEncoder := by
  unfold Obligations.FramingIsIndependentOfEncoder
  refine ⟨fun i s t hi h => ?frame, fun i => exec_framing_uniform, fun px s₁ s₂ t₁ t₂ h => exec_pixel_encodeAlike h⟩
  case frame =>
    obtain ⟨bytes, raises, huniform⟩ := exec_framing_uniform hi
    obtain rfl := exec_next_unique h (huniform s)
    exact ⟨rfl, rfl, rfl, rfl, rfl⟩

/-! ### An image -/

/-- The pixels of a session and FINALIZE, by induction on the pixels: the block is Finalized and ready for the commands
that come later. -/
theorem transactAll_pixels_finalize (pixels : List Pixel) (later : List Instr) {x : Byte} {s : State}
    (hs : InSession x s) :
    ∃ u body, transactAll (pixels.map .pixel ++ .finalize :: later) s = transactAll later u ∧
      u.sink = s.sink ++ body ∧ u.phase = .finalized ∧ u.fault = false ∧ u.outq = [] := by
  induction pixels generalizing s with
  | nil =>
    exact ⟨_, (flushRun s).outq, transactAll_cons_of_exec hs.fault hs.outq (exec_finalize_of_active hs.phase), by simp,
      rfl, by simp [hs.fault], rfl⟩
  | cons px pixels ih =>
    obtain ⟨u, body, htransact, hsink, hend⟩ := ih (hs.pixel px)
    obtain ⟨hsame, -⟩ := encodePixel_sameEnvironment px s
    have hexec : exec (.pixel px) s = .next (encodePixel px s) := execPixel_of_active s px hs.phase
    refine ⟨u, (encodePixel px s).outq ++ body, ?_, ?_, hend⟩
    · exact (transactAll_cons_of_exec hs.fault hs.outq hexec).trans htransact
    · rw [hsink, State.drain_sink, hsame, List.append_assoc]

/-- Settles O58: the header's bytes reach the sink, then those of the session (`exec_init_inSession`,
`transactAll_pixels_finalize`), then the terminator's. -/
theorem imageIsFramed : Obligations.ImageIsFramed := by
  unfold Obligations.ImageIsFramed
  intro w h c x pixels s hc hf hq
  have hheader := exec_header_of_valid w h s hc
  obtain ⟨t, hinit, hsession, -, -, hsinkStart⟩ :=
    exec_init_inSession x (s := (s.emit (headerBytes w h c)).drain) hf rfl
  obtain ⟨u, body, hpixels, hsinkBody, hp, hfu, hqu⟩ := transactAll_pixels_finalize pixels [.footer] hsession
  have hsink : (u.emit footerBytes).drain.sink = s.sink ++ (headerBytes w h c ++ body ++ footerBytes) := by
    rw [State.drain_sink, State.emit_sink, State.emit_outq, hsinkBody, hsinkStart, hqu]
    simp [hq]
  refine ⟨(u.emit footerBytes).drain, body, ?run, hsink, ?length, hp, hfu⟩
  case run =>
    calc transactAll (imageCommands w h c x pixels) s
        = transactAll (.header w h c :: .init x :: (pixels.map .pixel ++ [.finalize, .footer])) s := by
          simp [imageCommands, sessionCommands]
      _ = transactAll (.init x :: (pixels.map .pixel ++ [.finalize, .footer])) (s.emit (headerBytes w h c)).drain :=
          transactAll_cons_of_exec hf hq hheader
      _ = transactAll (pixels.map .pixel ++ [.finalize, .footer]) t.drain :=
          transactAll_cons_of_exec (s := (s.emit (headerBytes w h c)).drain) hf rfl hinit
      _ = transactAll [.footer] u := hpixels
      _ = .next (u.emit footerBytes).drain := transactAll_cons_of_exec hfu hqu (exec_footer u)
  case length =>
    simp only [hsink, List.length_append, headerBytes_length, footerBytes_length]

end Sys2Proof.Machine
end

section
/-! PROOF. The faults (60_exceptions.md): which condition raises which fault, and that a fault does nothing else (R220,
R221); and that the block stays in it until a reset (R222). -/

namespace Sys2Proof.Machine

variable {i : Instr} {s t : State} {c : FaultCause}

/-! ### Fault entry -/

/-- The condition on the instruction and the phase under which a fault of cause `c` is raised (60_exceptions.md
R220). -/
def RaisesFault (i : Instr) (p : Phase) : FaultCause → Prop
  | .reservedCommand => i = .reserved000 ∨ i = .reserved110 ∨ i = .reserved111
  | .notInitialised => p = .unconfigured ∧ ((∃ px, i = .pixel px) ∨ i = .finalize)
  | .pixelAfterFinalize => p = .finalized ∧ ∃ px, i = .pixel px
  | .badChannelCount => ∃ w h c, i = .header w h c ∧ c ≠ 3#8 ∧ c ≠ 4#8

/-- Under its condition a fault is raised and nothing else is done (60_exceptions.md R221). -/
theorem exec_of_raisesFault (h : RaisesFault i s.phase c) : exec i s = .next (s.raiseFault c) := by
  cases c with
  | reservedCommand => exact reservedCodesFault i s h
  | notInitialised =>
    obtain ⟨hp, ⟨px, rfl⟩ | rfl⟩ := h
    · exact execPixel_of_unconfigured s px hp
    · exact exec_finalize_of_unconfigured hp
  | pixelAfterFinalize =>
    obtain ⟨hp, px, rfl⟩ := h
    exact execPixel_of_finalized s px hp
  | badChannelCount =>
    obtain ⟨w, hh, n, rfl, h3, h4⟩ := h
    exact exec_header_of_invalid w hh s (not_or.mpr ⟨h3, h4⟩)

/-- Under no other condition is a fault raised: a meaning leaves the fault status alone, or raises a fault whose
condition holds (60_exceptions.md R220). -/
theorem exec_fault_cases (h : exec i s = .next t) :
    (t.fault = s.fault ∧ t.faultCode = s.faultCode) ∨ ∃ c, RaisesFault i s.phase c ∧ t = s.raiseFault c := by
  obtain ⟨_, -, rfl⟩ | ⟨px, -, -, rfl⟩ | ⟨px, rfl, hp, rfl⟩ | ⟨px, rfl, hp, rfl⟩ | ⟨rfl, hp, rfl⟩ | ⟨-, -, rfl⟩ |
    ⟨-, -, rfl⟩ | ⟨w, hh, n, rfl, h3, h4, rfl⟩ | ⟨hreserved, rfl⟩ | ⟨_, rfl, -⟩ := exec_cases h
  · exact .inl ⟨rfl, rfl⟩
  · exact .inl ⟨encodePixel_fault px s, encodePixel_faultCode px s⟩
  · exact .inr ⟨.notInitialised, ⟨hp, .inl ⟨px, rfl⟩⟩, rfl⟩
  · exact .inr ⟨.pixelAfterFinalize, ⟨hp, px, rfl⟩, rfl⟩
  · exact .inr ⟨.notInitialised, ⟨hp, .inr rfl⟩, rfl⟩
  · exact .inl ⟨flushRun_fault s, flushRun_faultCode s⟩
  · exact .inl ⟨rfl, rfl⟩
  · exact .inr ⟨.badChannelCount, ⟨w, hh, n, rfl, h3, h4⟩, rfl⟩
  · exact .inr ⟨.reservedCommand, hreserved, rfl⟩
  · exact .inl ⟨rfl, rfl⟩

/-- The four causes have four codes (60_exceptions.md R220). -/
theorem faultCauseCode_injective : Function.Injective faultCauseCode := by
  intro c d
  cases c <;> cases d <;> simp [faultCauseCode]

/-- From a state with no fault, the code of a cause stands after a meaning exactly where the cause's condition held. -/
theorem exec_faultCode_iff (c : FaultCause) (hf : s.fault = false) (h : exec i s = .next t) :
    t.fault = true ∧ t.faultCode = faultCauseCode c ↔ RaisesFault i s.phase c := by
  refine ⟨fun ⟨hfault, hcode⟩ => ?_, fun hraises => ?_⟩
  · obtain ⟨hsame, -⟩ | ⟨d, hraises, rfl⟩ := exec_fault_cases h
    · simp [hsame, hf] at hfault
    · exact faultCauseCode_injective hcode ▸ hraises
  · obtain rfl := exec_next_unique h (exec_of_raisesFault hraises)
    exact ⟨rfl, rfl⟩

/-- Settles O54: `exec_faultCode_iff` for each cause; that a fault does nothing else and that its code is one of the
four is `exec_status_cases`. -/
theorem faultEntryIsPrecise : Obligations.FaultEntryIsPrecise := by
  unfold Obligations.FaultEntryIsPrecise
  intro i s t hf h
  have hraised (hfault : t.fault = true) : ∃ c, t = s.raiseFault c := by
    obtain ⟨hsame, -⟩ | hraise := exec_status_cases h
    · simp [hsame, hf] at hfault
    · exact hraise
  refine ⟨fun hfault => ?nothingElse, fun hfault => ?unchanged, exec_faultCode_iff .reservedCommand hf h,
    exec_faultCode_iff .notInitialised hf h, exec_faultCode_iff .pixelAfterFinalize hf h,
    exec_faultCode_iff .badChannelCount hf h, fun hfault => ?codes⟩
  case nothingElse =>
    obtain ⟨c, rfl⟩ := hraised hfault
    rfl
  case unchanged =>
    obtain ⟨-, hcode⟩ | ⟨c, rfl⟩ := exec_status_cases h
    · exact hcode
    · simp at hfault
  case codes =>
    obtain ⟨c, rfl⟩ := hraised hfault
    cases c <;> simp [faultCauseCode]

/-! ### A faulted block -/

theorem State.ready_of_fault (hf : s.fault = true) : s.ready = false := by
  simp [State.ready, hf]

/-- A step of a faulted block runs no meaning: it is a reset where `rst` is high, and otherwise no more than the
transfer of a byte (60_exceptions.md R222). -/
theorem step_cases_of_fault (hf : s.fault = true) (h : step s = .next t) :
    (s.pinsNow.rst = true ∧ t = (s.advance.setHeld s.pinsNow.cmd).resetBlock) ∨
    (s.pinsNow.rst = false ∧ SameButTransferred t s) := by
  have hnot : s.ready ≠ true := by simp [State.ready_of_fault hf]
  obtain ⟨-, hedge⟩ | ⟨-, -, -, -, hready, -⟩ := step_cases h
  · obtain ⟨-, hreset | ⟨-, hready, -⟩ | ⟨-, hready, -⟩ | ⟨hr, -, rfl⟩⟩ := clockEdge_cases hedge
    · exact .inl hreset
    · exact absurd hready hnot
    · exact absurd hready hnot
    · exact .inr ⟨hr, outputEdge_sameButTransferred s.pinsNow (s.advance.setHeld s.pinsNow.cmd)⟩
  · exact absurd hready hnot

/-- No meaning clears a fault (60_exceptions.md R222). -/
theorem exec_keeps_fault (hf : s.fault = true) (h : exec i s = .next t) : t.fault = true := by
  obtain ⟨hsame, -⟩ | ⟨c, rfl⟩ := exec_status_cases h
  · exact hsame.trans hf
  · rfl

/-- Settles O16: a faulted block is not ready, so a step is a reset or a transfer (`step_cases_of_fault`). -/
theorem faultIsSticky : Obligations.FaultIsSticky := by
  unfold Obligations.FaultIsSticky
  refine ⟨fun p s hf => ?notReady, fun s t hf hr h => ?low, fun i s t => exec_keeps_fault,
    fun s t hf _ hr h => ?high⟩
  case notReady => simp [cmdReady, State.ready_of_fault hf]
  case low =>
    obtain ⟨hr', -⟩ | ⟨-, hencoder, hfault, hcode, hout⟩ := step_cases_of_fault hf h
    · simp [hr] at hr'
    · exact ⟨hfault.trans hf, hcode, hencoder, fun hq => List.suffix_nil.mp (hq ▸ hout)⟩
  case high =>
    obtain ⟨-, rfl⟩ | ⟨hr', -⟩ := step_cases_of_fault hf h
    · exact ⟨rfl, rfl⟩
    · simp [hr] at hr'

end Sys2Proof.Machine
end

section
/-! PROOF. The clock edge (70_reset_and_hazards.md): the host's duty (R257), reset (R250), the command handshake (R255)
and the output handshake (R256), each with the equation of the edge it governs; and the wait after reset (R251). -/

namespace Sys2Proof.Machine

/-! ### The host's offer -/

/-- A host that holds no offer, or still shows the one it holds, keeps its duty. -/
theorem offerChanged_of_kept {held cmd : Option CommandWord} (h : held = none ∨ cmd = held) :
    offerChanged held cmd = false := by
  obtain rfl | rfl := h
  · rfl
  · cases cmd <;> simp [offerChanged]

/-- No meaning refuses a step. -/
theorem exec_ne_refused (i : Instr) (s : State) (r : Refusal) : exec i s ≠ .refused r := by
  obtain ⟨t, h, -⟩ := exec_appends i s
  simp [h]

/-- The command handshake never refuses a step. -/
theorem commandEdge_ne_refused (p : Pins) (s : State) (r : Refusal) : commandEdge p s ≠ .refused r := by
  unfold commandEdge
  cases p.cmd with
  | none => simp
  | some w => exact exec_ne_refused _ _ r

/-- A clock edge is refused exactly where the host breaks its duty. -/
theorem clockEdge_refused_iff {p : Pins} {s : State} {r : Refusal} :
    clockEdge p s = .refused r ↔ r = .offerChanged ∧ offerChanged s.held p.cmd = true := by
  unfold clockEdge
  split_ifs with ho
  · simp [ho, eq_comm]
  · simp [ho]
  · simp [ho, commandEdge_ne_refused]
  · simp [ho]

/-- A refused step is a refused clock edge: the record at the formatter's input is never refused. -/
theorem clockEdge_refused_of_step {s : State} {r : Refusal} (h : step s = .refused r) :
    clockEdge s.pinsNow s.advance = .refused r := by
  rw [step, blockStep] at h
  split at h
  · exact h
  · split at h
    · rw [formatterStep] at h
      split at h
      · exact absurd h (exec_ne_refused _ _ r)
      · cases h
    · exact h

/-- Settles O13: a clock edge is refused for a changed offer and for nothing else (`clockEdge_refused_iff`), and only a
clock edge can be refused. -/
theorem changedOfferHasNoMove : Obligations.ChangedOfferHasNoMove := by
  unfold Obligations.ChangedOfferHasNoMove
  refine ⟨fun s w hform hheld hcmd => ?noMove, fun s r h => ?onlyRefusal⟩
  case noMove =>
    rw [step_of_no_record hform]
    exact clockEdge_refused_iff.mpr ⟨rfl, offerChanged_iff.mpr ⟨w, hheld, hcmd⟩⟩
  case onlyRefusal =>
    obtain ⟨rfl, hchanged⟩ := clockEdge_refused_iff.mp (clockEdge_refused_of_step h)
    exact ⟨rfl, offerChanged_iff.mp hchanged⟩

/-! ### The edge of a host that keeps its offer -/

section Edge

variable {s : State} (hform : s.formatterIn = none) (hkept : s.held = none ∨ s.pinsNow.cmd = s.held)
include hform hkept

/-- With `rst` high the edge resets the block, whatever is offered (70_reset_and_hazards.md R250). -/
theorem step_of_rst (hr : s.pinsNow.rst = true) : step s = .next (s.advance.setHeld s.pinsNow.cmd).resetBlock := by
  simp [step_of_no_record hform, clockEdge, offerChanged_of_kept hkept, hr]

/-- With `rst` low the edge of a ready block is the command handshake (70_reset_and_hazards.md R255). -/
theorem step_of_ready (hr : s.pinsNow.rst = false) (hready : s.ready = true) :
    step s = commandEdge s.pinsNow s.advance := by
  have hadvance : s.advance.ready = true := hready
  simp [step_of_no_record hform, clockEdge, offerChanged_of_kept hkept, cmdReady, hr, hadvance]

/-- With `rst` low the edge of a block that is not ready is the output handshake, and what is offered stays offered
(70_reset_and_hazards.md R256). -/
theorem step_of_not_ready (hr : s.pinsNow.rst = false) (hready : s.ready = false) :
    step s = .next (outputEdge s.pinsNow (s.advance.setHeld s.pinsNow.cmd)) := by
  have hadvance : s.advance.ready = false := hready
  simp [step_of_no_record hform, clockEdge, offerChanged_of_kept hkept, cmdReady, hr, hadvance]

end Edge

/-! ### Reset -/

/-- Settles O11: `rst` holds both handshakes off, and the edge is `State.resetBlock` (`step_of_rst`). -/
theorem resetEdge : Obligations.ResetEdge := by
  unfold Obligations.ResetEdge
  intro s hform hr hkept
  exact ⟨by simp [cmdReady, hr], by simp [outValid, hr], _, step_of_rst hform hkept hr, rfl, rfl, rfl, rfl, rfl⟩

/-! ### The output handshake -/

section Output

variable {p : Pins} {s : State}

theorem outValid_iff : outValid p s = true ↔ p.rst = false ∧ s.outq ≠ [] := by
  simp [outValid]

theorem State.ready_of_outq_ne_nil (hq : s.outq ≠ []) : s.ready = false := by
  simp [State.ready, hq]

theorem outputEdge_of_outq_nil (hq : s.outq = []) : outputEdge p s = s := by
  simp [outputEdge, outValid, hq]

theorem outputEdge_of_not_outReady (hready : p.outReady = false) : outputEdge p s = s := by
  simp [outputEdge, hready]

/-- A sink that is ready takes the byte shown to it. -/
theorem outputEdge_of_outReady {b : Byte} {bs : List Byte} (hr : p.rst = false) (hq : s.outq = b :: bs)
    (hready : p.outReady = true) : outputEdge p s = { s with outq := bs, sink := s.sink ++ [b] } := by
  simp [outputEdge, outValid, State.transfer, hr, hq, hready]

end Output

/-- Settles O12: a block with a byte waiting is not ready for a command, so its edge is the output handshake
(`step_of_not_ready`), which moves the head byte or nothing. -/
theorem outputHandshake : Obligations.OutputHandshake := by
  unfold Obligations.OutputHandshake
  refine ⟨fun p s => outValid_iff, fun p s b bs hr hq => ?headByte, fun s b bs hform hr hkept hq => ?edge⟩
  case headByte => simp [outByte, outValid_iff, hr, hq]
  case edge =>
    rw [step_of_not_ready hform hkept hr (State.ready_of_outq_ne_nil (by simp [hq]))]
    refine ⟨fun hready => ?transferred, fun hready => ?stays⟩
    case transferred => exact congrArg _ (outputEdge_of_outReady hr hq hready)
    case stays => exact congrArg _ (outputEdge_of_not_outReady hready)

/-! ### The command handshake -/

theorem commandEdge_of_cmd_none {p : Pins} (s : State) (hcmd : p.cmd = none) :
    commandEdge p s = .next (s.setHeld none) := by
  simp [commandEdge, hcmd]

theorem commandEdge_of_cmd_some {p : Pins} {w : CommandWord} (s : State) (hcmd : p.cmd = some w) :
    commandEdge p s = exec (decodeCommand w) (s.setHeld none) := by
  simp [commandEdge, hcmd]

/-- Settles O8: the step is the command handshake (`step_of_ready`), which runs the command on the pins. -/
theorem stepRunsOfferedCommand : Obligations.StepRunsOfferedCommand := by
  unfold Obligations.StepRunsOfferedCommand
  intro s w hform hr hcmd hheld hf hq
  have hkept : s.held = none ∨ s.pinsNow.cmd = s.held := hheld.imp_right (hcmd.trans ·.symm)
  exact (step_of_ready hform hkept hr (State.ready_iff.mpr ⟨hf, hq⟩)).trans (commandEdge_of_cmd_some _ hcmd)

/-! ### Waiting -/

/-- Settles O15: a ready block finds no command on the pins, and one that is not ready finds no byte to transfer. -/
theorem idleEdgeChangesNothing : Obligations.IdleEdgeChangesNothing := by
  unfold Obligations.IdleEdgeChangesNothing
  intro s hform hr hcmd hheld hq
  have hidle : s.advance.setHeld none = s.advance := State.setHeld_none_of_held_none hheld
  cases hready : s.ready with
  | true =>
    calc step s = commandEdge s.pinsNow s.advance := step_of_ready hform (.inl hheld) hr hready
      _ = .next (s.advance.setHeld none) := commandEdge_of_cmd_none _ hcmd
      _ = .next s.advance := by rw [hidle]
  | false =>
    calc step s = .next (outputEdge s.pinsNow (s.advance.setHeld s.pinsNow.cmd)) :=
          step_of_not_ready hform (.inl hheld) hr hready
      _ = .next (outputEdge s.pinsNow s.advance) := by rw [hcmd, hidle]
      _ = .next s.advance := congrArg _ (outputEdge_of_outq_nil hq)

/-- Settles O19: at reset every edge is idle (`idleEdgeChangesNothing`), so by induction any number of steps stays
there. -/
theorem resetWaitsForCommand : Obligations.ResetWaitsForCommand := by
  unfold Obligations.ResetWaitsForCommand
  have hidle : step State.reset = .next State.reset := idleEdgeChangesNothing State.reset rfl rfl rfl rfl rfl
  refine ⟨rfl, rfl, rfl, rfl, fun n => ?_⟩
  induction n with
  | zero => rfl
  | succ n ih => rw [stepMany_succ_of_step n hidle, ih]

end Sys2Proof.Machine
end
